-- ==== Sys2Proof/Word.lean ====
section
/-! DEFINITION. The widths of the core's values (spec/00_scope.md R7, R9): bytes, 16-bit words, 12-bit
addresses, register numbers, sprite heights, pixel columns and rows. -/

namespace Sys2Proof

/-- An 8-bit value: a general register, a timer, a memory byte, an immediate `nn` (R7, R9). -/
abbrev Byte := BitVec 8

/-- A 16-bit value: an opcode, the program counter, the index register, a return address (R7). -/
abbrev Word := BitVec 16

/-- The 12-bit immediate `nnn` of an opcode (R101). -/
abbrev Addr12 := BitVec 12

/-- The number of a general register, 0 to 15 (R30). -/
abbrev Reg := Fin 16

/-- The height of a sprite in rows, 0 to 15 (R101, R102). -/
abbrev Height := Fin 16

/-- A pixel column, 0 at the left (R44). -/
abbrev Col := Fin 64

/-- A pixel row, 0 at the top (R44). -/
abbrev Row := Fin 32

/-- `VF`, the register some instructions also write as a flag (R31). -/
abbrev vf : Reg := 15

end Sys2Proof
end

