-- ==== Sys2Proof/Machine/Flags.lean ====
section
/-! DEFINITION. The values the flag-producing instructions write to `VF` (spec/42_alu.md R182). -/

namespace Sys2Proof.Machine

/-- A flag as the byte `VF` receives, 1 or 0 (R182). -/
def flagByte (c : Bool) : Byte := if c then 1 else 0

/-- The carry out of `a + b`: the unwrapped sum exceeds 255 (R189). -/
def carryFlag (a b : Byte) : Byte := flagByte (a.toNat + b.toNat > 255)

/-- NOT borrow of `a - b`: 0 when `b > a` before the wrap, else 1 (R190, R192). -/
def notBorrowFlag (a b : Byte) : Byte := flagByte (!(b.toNat > a.toNat))

/-- The bit a right shift puts out, bit 0 (R191). -/
def lsbFlag (a : Byte) : Byte := a &&& 1

/-- The bit a left shift puts out, bit 7 (R193). -/
def msbFlag (a : Byte) : Byte := (a >>> 7) &&& 1

end Sys2Proof.Machine
end

