-- ==== Sys2Proof/Syntax.lean ====
section
/-! DEFINITION. The instructions: one constructor for each row of spec/opcode_table.json, in the table's order
(spec/30_encoding.md R104), with the fields of R101. -/

namespace Sys2Proof

/-- One instruction. `x` and `y` are register numbers, `nn` and `nnn` immediates, `n` a sprite height (R101, R102). -/
inductive Instr where
  /-- `CLS`, 00E0 (R230). -/
  | cls
  /-- `RET`, 00EE (R150). -/
  | ret
  /-- `JP nnn`, 1nnn (R151). -/
  | jp (nnn : Addr12)
  /-- `CALL nnn`, 2nnn (R152). -/
  | call (nnn : Addr12)
  /-- `SE Vx, nn`, 3xnn (R156). -/
  | seImm (x : Reg) (nn : Byte)
  /-- `SNE Vx, nn`, 4xnn (R157). -/
  | sneImm (x : Reg) (nn : Byte)
  /-- `SE Vx, Vy`, 5xy0 (R158). -/
  | seReg (x y : Reg)
  /-- `LD Vx, nn`, 6xnn (R180). -/
  | ldImm (x : Reg) (nn : Byte)
  /-- `ADD Vx, nn`, 7xnn (R181). -/
  | addImm (x : Reg) (nn : Byte)
  /-- `LD Vx, Vy`, 8xy0 (R184). -/
  | ldReg (x y : Reg)
  /-- `OR Vx, Vy`, 8xy1 (R185). -/
  | orReg (x y : Reg)
  /-- `AND Vx, Vy`, 8xy2 (R186). -/
  | andReg (x y : Reg)
  /-- `XOR Vx, Vy`, 8xy3 (R187). -/
  | xorReg (x y : Reg)
  /-- `ADD Vx, Vy`, 8xy4 (R189). -/
  | addReg (x y : Reg)
  /-- `SUB Vx, Vy`, 8xy5 (R190). -/
  | subReg (x y : Reg)
  /-- `SHR Vx, Vy`, 8xy6; `y` is encoded and not read (R111, R191). -/
  | shr (x y : Reg)
  /-- `SUBN Vx, Vy`, 8xy7 (R192). -/
  | subn (x y : Reg)
  /-- `SHL Vx, Vy`, 8xyE; `y` is encoded and not read (R111, R193). -/
  | shl (x y : Reg)
  /-- `SNE Vx, Vy`, 9xy0 (R159). -/
  | sneReg (x y : Reg)
  /-- `LD I, nnn`, Annn (R210). -/
  | ldI (nnn : Addr12)
  /-- `JP V0, nnn`, Bnnn (R154). -/
  | jpV0 (nnn : Addr12)
  /-- `RND Vx, nn`, Cxnn (R197). -/
  | rnd (x : Reg) (nn : Byte)
  /-- `DRW Vx, Vy, n`, Dxyn (R232). -/
  | drw (x y : Reg) (n : Height)
  /-- `SKP Vx`, Ex9E (R162). -/
  | skp (x : Reg)
  /-- `SKNP Vx`, ExA1 (R164). -/
  | sknp (x : Reg)
  /-- `LD Vx, DT`, Fx07 (R250). -/
  | ldVxDt (x : Reg)
  /-- `LD Vx, K`, Fx0A (R253). -/
  | ldVxK (x : Reg)
  /-- `LD DT, Vx`, Fx15 (R251). -/
  | ldDtVx (x : Reg)
  /-- `LD ST, Vx`, Fx18 (R252). -/
  | ldStVx (x : Reg)
  /-- `ADD I, Vx`, Fx1E (R212). -/
  | addIVx (x : Reg)
  /-- `LD F, Vx`, Fx29 (R214). -/
  | ldFVx (x : Reg)
  /-- `LD B, Vx`, Fx33 (R216). -/
  | ldBVx (x : Reg)
  /-- `LD [I], Vx`, Fx55 (R218). -/
  | ldMemVx (x : Reg)
  /-- `LD Vx, [I]`, Fx65 (R220). -/
  | ldVxMem (x : Reg)
  /-- `DW w`: a word that matches no other row, a no-op (R108, R136). -/
  | dw (w : Word)
  deriving DecidableEq, Repr

/-- The instruction's row in spec/opcode_table.json, counted from 0 (R104). -/
def Instr.tableRow : Instr → Nat
  | .cls => 0
  | .ret => 1
  | .jp _ => 2
  | .call _ => 3
  | .seImm _ _ => 4
  | .sneImm _ _ => 5
  | .seReg _ _ => 6
  | .ldImm _ _ => 7
  | .addImm _ _ => 8
  | .ldReg _ _ => 9
  | .orReg _ _ => 10
  | .andReg _ _ => 11
  | .xorReg _ _ => 12
  | .addReg _ _ => 13
  | .subReg _ _ => 14
  | .shr _ _ => 15
  | .subn _ _ => 16
  | .shl _ _ => 17
  | .sneReg _ _ => 18
  | .ldI _ => 19
  | .jpV0 _ => 20
  | .rnd _ _ => 21
  | .drw _ _ _ => 22
  | .skp _ => 23
  | .sknp _ => 24
  | .ldVxDt _ => 25
  | .ldVxK _ => 26
  | .ldDtVx _ => 27
  | .ldStVx _ => 28
  | .addIVx _ => 29
  | .ldFVx _ => 30
  | .ldBVx _ => 31
  | .ldMemVx _ => 32
  | .ldVxMem _ => 33
  | .dw _ => 34

end Sys2Proof
end

