-- ==== Sys2Proof/Decode.lean ====
section
/-! DEFINITION. The instruction encoding (spec/30_encoding.md): the fields of an opcode, the opcode table, the
decoder, total on any bytes, and the encoder written from the same table. -/

namespace Sys2Proof

/-! ## Fields and byte order -/

/-- Two bytes as a word, the first one the high byte: `concat` (R9), the big-endian order of a fetch (R76). -/
def concatBytes (hi lo : Byte) : Word := hi ++ lo

/-- `op[15:8]`, the byte at the lower address (R76). -/
def highByte (op : Word) : Byte := op.extractLsb 15 8

/-- `op[7:0]`, the byte at the higher address (R76). -/
def lowByte (op : Word) : Byte := op.extractLsb 7 0

/-- The top nibble `t`, `op[15:12]` (R101). -/
def fieldT (op : Word) : Nat := (op.extractLsb 15 12).toNat

/-- The register number `x`, `op[11:8]` (R101). -/
def fieldX (op : Word) : Reg := (op.extractLsb 11 8).toFin

/-- The register number `y`, `op[7:4]` (R101). -/
def fieldY (op : Word) : Reg := (op.extractLsb 7 4).toFin

/-- The nibble `n`, `op[3:0]` (R101). -/
def fieldN (op : Word) : Height := (op.extractLsb 3 0).toFin

/-- The byte immediate `nn`, `op[7:0]` (R101). -/
def fieldNN (op : Word) : Byte := op.extractLsb 7 0

/-- The address immediate `nnn`, `op[11:0]` (R101). -/
def fieldNNN (op : Word) : Addr12 := op.extractLsb 11 0

/-! ## The opcode table -/

/-- One row of the opcode map: the fixed bits of a pattern and the mask that selects them (R103, R104). -/
structure OpcodeRow where
  /-- The row's `match`. -/
  pat : Word
  /-- The row's `mask`. -/
  mask : Word
  deriving DecidableEq, Repr

/-- A word selects a row when its masked bits are the row's (R103). -/
def OpcodeRow.selects (r : OpcodeRow) (w : Word) : Bool := w &&& r.mask == r.pat

/-- The opcode map, families 0 to 7 (R104). -/
def opcodeRowsLow : List OpcodeRow :=
  [⟨0x00E0, 0xFFFF⟩, ⟨0x00EE, 0xFFFF⟩, ⟨0x1000, 0xF000⟩, ⟨0x2000, 0xF000⟩, ⟨0x3000, 0xF000⟩,
   ⟨0x4000, 0xF000⟩, ⟨0x5000, 0xF00F⟩, ⟨0x6000, 0xF000⟩, ⟨0x7000, 0xF000⟩]

/-- The opcode map, families 8 and 9 (R104). -/
def opcodeRowsAlu : List OpcodeRow :=
  [⟨0x8000, 0xF00F⟩, ⟨0x8001, 0xF00F⟩, ⟨0x8002, 0xF00F⟩, ⟨0x8003, 0xF00F⟩, ⟨0x8004, 0xF00F⟩,
   ⟨0x8005, 0xF00F⟩, ⟨0x8006, 0xF00F⟩, ⟨0x8007, 0xF00F⟩, ⟨0x800E, 0xF00F⟩, ⟨0x9000, 0xF00F⟩]

/-- The opcode map, families A to F (R104). -/
def opcodeRowsHigh : List OpcodeRow :=
  [⟨0xA000, 0xF000⟩, ⟨0xB000, 0xF000⟩, ⟨0xC000, 0xF000⟩, ⟨0xD000, 0xF000⟩, ⟨0xE09E, 0xF0FF⟩,
   ⟨0xE0A1, 0xF0FF⟩, ⟨0xF007, 0xF0FF⟩, ⟨0xF00A, 0xF0FF⟩, ⟨0xF015, 0xF0FF⟩, ⟨0xF018, 0xF0FF⟩,
   ⟨0xF01E, 0xF0FF⟩, ⟨0xF029, 0xF0FF⟩, ⟨0xF033, 0xF0FF⟩, ⟨0xF055, 0xF0FF⟩, ⟨0xF065, 0xF0FF⟩]

/-- The 34 instruction rows of the opcode map, in the order of spec/opcode_table.json: the row an instruction has
there is its `Instr.tableRow` (R104). Any other word is unrecognized (R108). -/
def opcodeTable : List OpcodeRow := opcodeRowsLow ++ opcodeRowsAlu ++ opcodeRowsHigh

/-- A word that matches some row of the opcode map (R103, R108). -/
def recognized (w : Word) : Bool := opcodeTable.any (·.selects w)

/-! ## The decoder -/

/-- Family 0: two whole words, every other word is unrecognized (R106, R107; log entry 7). -/
def decode0 (op : Word) : Instr :=
  if op = 0x00E0 then .cls
  else if op = 0x00EE then .ret
  else .dw op

/-- Family 5: `n` is 0 (R106; log entry 7). -/
def decode5 (op : Word) : Instr :=
  if fieldN op = 0 then .seReg (fieldX op) (fieldY op) else .dw op

/-- Family 8, by `n` (R107). -/
def decode8 (op : Word) : Instr :=
  match (fieldN op).val with
  | 0x0 => .ldReg (fieldX op) (fieldY op)
  | 0x1 => .orReg (fieldX op) (fieldY op)
  | 0x2 => .andReg (fieldX op) (fieldY op)
  | 0x3 => .xorReg (fieldX op) (fieldY op)
  | 0x4 => .addReg (fieldX op) (fieldY op)
  | 0x5 => .subReg (fieldX op) (fieldY op)
  | 0x6 => .shr (fieldX op) (fieldY op)
  | 0x7 => .subn (fieldX op) (fieldY op)
  | 0xE => .shl (fieldX op) (fieldY op)
  | _ => .dw op

/-- Family 9: `n` is 0 (R106; log entry 7). -/
def decode9 (op : Word) : Instr :=
  if fieldN op = 0 then .sneReg (fieldX op) (fieldY op) else .dw op

/-- Family E, by `nn` (R107). -/
def decodeE (op : Word) : Instr :=
  match (fieldNN op).toNat with
  | 0x9E => .skp (fieldX op)
  | 0xA1 => .sknp (fieldX op)
  | _ => .dw op

/-- Family F, by `nn` (R107). -/
def decodeF (op : Word) : Instr :=
  match (fieldNN op).toNat with
  | 0x07 => .ldVxDt (fieldX op)
  | 0x0A => .ldVxK (fieldX op)
  | 0x15 => .ldDtVx (fieldX op)
  | 0x18 => .ldStVx (fieldX op)
  | 0x1E => .addIVx (fieldX op)
  | 0x29 => .ldFVx (fieldX op)
  | 0x33 => .ldBVx (fieldX op)
  | 0x55 => .ldMemVx (fieldX op)
  | 0x65 => .ldVxMem (fieldX op)
  | _ => .dw op

/-- The instruction a word selects: dispatch on the top nibble, with a second level in families 0, 5, 8, 9, E and
F (R103, R107). Total: a word that matches no row is the data word `DW` (R108, R110). The last arm is of no
word, `t` having four bits. -/
def decodeWord (op : Word) : Instr :=
  match fieldT op with
  | 0x0 => decode0 op
  | 0x1 => .jp (fieldNNN op)
  | 0x2 => .call (fieldNNN op)
  | 0x3 => .seImm (fieldX op) (fieldNN op)
  | 0x4 => .sneImm (fieldX op) (fieldNN op)
  | 0x5 => decode5 op
  | 0x6 => .ldImm (fieldX op) (fieldNN op)
  | 0x7 => .addImm (fieldX op) (fieldNN op)
  | 0x8 => decode8 op
  | 0x9 => decode9 op
  | 0xA => .ldI (fieldNNN op)
  | 0xB => .jpV0 (fieldNNN op)
  | 0xC => .rnd (fieldX op) (fieldNN op)
  | 0xD => .drw (fieldX op) (fieldY op) (fieldN op)
  | 0xE => decodeE op
  | 0xF => decodeF op
  | _ => .dw op

/-- Why bytes are no instruction: an instruction is exactly two bytes (R100). No two bytes are rejected (R110). -/
inductive DecodeError where
  /-- Fewer than two bytes were given. Raised by `decodeBytes` alone, never by a fetch, which always reads two
  bytes (R131). Safe: no instruction is read. -/
  | truncated
  deriving DecidableEq, Repr

/-- The instruction at the front of a list of bytes, big-endian (R76), and the bytes after it (R100). -/
def decodeBytes : List Byte → Except DecodeError (Instr × List Byte)
  | hi :: lo :: rest => .ok (decodeWord (concatBytes hi lo), rest)
  | _ => .error .truncated

/-- The bytes of an instruction whose bits, numbered as spec/opcode_table.json numbers them, are `w`: its 16-bit
word, the bits from `nbits` up zero, laid out high byte first (R76, R100). -/
def tableWordBytes (nbits w : Nat) : List Byte :=
  [highByte (BitVec.ofNat 16 (w % 2 ^ nbits)), lowByte (BitVec.ofNat 16 (w % 2 ^ nbits))]

/-- The instruction the decoder reads from an instruction whose bits are `w` (R110). -/
def decodeTableWord (nbits w : Nat) : Option Instr :=
  match decodeBytes (tableWordBytes nbits w) with
  | .ok (i, _) => some i
  | .error _ => none

/-! ## The encoder -/

/-- A register number or a height as the four bits of its field (R101). -/
def nibble (r : Fin 16) : BitVec 4 := BitVec.ofFin r

/-- The word of a pattern with one address field, `tnnn` (R101). -/
def wordNNN (t : BitVec 4) (nnn : Addr12) : Word := t ++ nnn

/-- The word of a pattern with a register and a byte, `txnn` (R101). -/
def wordXNN (t : BitVec 4) (x : Reg) (nn : Byte) : Word := t ++ nibble x ++ nn

/-- The word of a pattern with two registers and a nibble, `txyn` (R101). -/
def wordXYN (t : BitVec 4) (x y : Reg) (n : BitVec 4) : Word := t ++ nibble x ++ nibble y ++ n

/-- The word of an instruction, from the patterns of the opcode map (R104). -/
def encode : Instr → Word
  | .cls => 0x00E0
  | .ret => 0x00EE
  | .jp nnn => wordNNN 0x1 nnn
  | .call nnn => wordNNN 0x2 nnn
  | .seImm x nn => wordXNN 0x3 x nn
  | .sneImm x nn => wordXNN 0x4 x nn
  | .seReg x y => wordXYN 0x5 x y 0x0
  | .ldImm x nn => wordXNN 0x6 x nn
  | .addImm x nn => wordXNN 0x7 x nn
  | .ldReg x y => wordXYN 0x8 x y 0x0
  | .orReg x y => wordXYN 0x8 x y 0x1
  | .andReg x y => wordXYN 0x8 x y 0x2
  | .xorReg x y => wordXYN 0x8 x y 0x3
  | .addReg x y => wordXYN 0x8 x y 0x4
  | .subReg x y => wordXYN 0x8 x y 0x5
  | .shr x y => wordXYN 0x8 x y 0x6
  | .subn x y => wordXYN 0x8 x y 0x7
  | .shl x y => wordXYN 0x8 x y 0xE
  | .sneReg x y => wordXYN 0x9 x y 0x0
  | .ldI nnn => wordNNN 0xA nnn
  | .jpV0 nnn => wordNNN 0xB nnn
  | .rnd x nn => wordXNN 0xC x nn
  | .drw x y n => wordXYN 0xD x y (nibble n)
  | .skp x => wordXNN 0xE x 0x9E
  | .sknp x => wordXNN 0xE x 0xA1
  | .ldVxDt x => wordXNN 0xF x 0x07
  | .ldVxK x => wordXNN 0xF x 0x0A
  | .ldDtVx x => wordXNN 0xF x 0x15
  | .ldStVx x => wordXNN 0xF x 0x18
  | .addIVx x => wordXNN 0xF x 0x1E
  | .ldFVx x => wordXNN 0xF x 0x29
  | .ldBVx x => wordXNN 0xF x 0x33
  | .ldMemVx x => wordXNN 0xF x 0x55
  | .ldVxMem x => wordXNN 0xF x 0x65
  | .dw w => w

end Sys2Proof
end

