-- ==== Sys2Proof/Config.lean ====
section
/-! DEFINITION. What an implementation of the core fixes (spec/00_scope.md R7) and the free values the spec
leaves open (R13): the draws of Cxnn and of the key skips. -/

namespace Sys2Proof

/-- The size of memory in bytes, `MEM_SIZE` (R7). -/
def Config.memSize : Nat := 4096

/-- The address a program is loaded at and the program counter's reset value, `PROG_BASE` (R7). -/
def Config.progBase : Nat := 0x200

/-- The address of the font table, `FONT_BASE` (R7). -/
def Config.fontBase : Nat := 0x050

/-- The number of bytes of one glyph, `FONT_GLYPH_BYTES` (R7). -/
def Config.glyphBytes : Nat := 5

/-- The depth of the call stack, `STACK_DEPTH`, at its default: `none`, unbounded (R7, R41). A state carries its
own depth in the field `stackDepth`, so nothing rests on this default but the reset state (log entry 2). -/
def Config.defaultStackDepth : Option Nat := none

/-- The font table `FONT` at its default, glyph by glyph (R306). PRESUMED: the spec itself marks these bytes as
general knowledge (log entry 5). No instruction reads this constant: it is an argument of `load_font`. -/
def Config.defaultFont : Vector Byte 80 :=
  #v[0xF0, 0x90, 0x90, 0x90, 0xF0,
     0x20, 0x60, 0x20, 0x20, 0x70,
     0xF0, 0x10, 0xF0, 0x80, 0xF0,
     0xF0, 0x10, 0xF0, 0x10, 0xF0,
     0x90, 0x90, 0xF0, 0x10, 0x10,
     0xF0, 0x80, 0xF0, 0x10, 0xF0,
     0xF0, 0x80, 0xF0, 0x90, 0xF0,
     0xF0, 0x10, 0x20, 0x40, 0x40,
     0xF0, 0x90, 0xF0, 0x90, 0xF0,
     0xF0, 0x90, 0xF0, 0x10, 0xF0,
     0xF0, 0x90, 0xF0, 0x90, 0x90,
     0xE0, 0x90, 0xE0, 0x90, 0xE0,
     0xF0, 0x80, 0x80, 0x80, 0xF0,
     0xE0, 0x90, 0x90, 0x90, 0xE0,
     0xF0, 0x80, 0xF0, 0x80, 0xF0,
     0xF0, 0x80, 0xF0, 0x80, 0x80]

/-- `draw_byte()`: the byte the n-th draw of a run supplies. A free value: nothing constrains it (R13, R197;
log entry 3). -/
opaque Config.freeByte : Nat → Byte

/-- `draw_bool()`: the boolean the n-th draw of a run supplies. A free value: nothing constrains it (R13, R163;
log entry 4). -/
opaque Config.freeBool : Nat → Bool

end Sys2Proof
end

