-- ==== Sys2Proof/Machine/State.lean ====
section
/-! DEFINITION. The state of the core as plain data (spec/10_state.md R59), its value right after power-on (R61,
R300), and the reasons a step can stop. -/

namespace Sys2Proof.Machine

/-- Memory: the (address, byte) pairs of the addresses that hold something else than an unlisted address reads as,
at strictly rising addresses (R53). -/
abbrev Memory := List Host.Cell

/-- The framebuffer `FB`, a column of rows at a time: pixel `FB[col][row]` is on when true (R44). -/
abbrev Framebuffer := Vector (Vector Bool 32) 64

/-- The fault status register `fault` (R54). -/
inductive FaultStatus where
  /-- `None`: the core runs. -/
  | noFault
  /-- `StackUnderflow`, raised by 00EE on an empty stack (R271). -/
  | stackUnderflow
  /-- `StackOverflow`, raised by 2nnn on a full stack of finite depth (R272). -/
  | stackOverflow
  deriving DecidableEq, Repr

/-- The whole state of the core (R59), with two fields of the model's own after it. -/
structure State where
  /-- The general registers `V[0]` to `V[15]` (R30). -/
  v : Vector Byte 16
  /-- The program counter (R35). -/
  pc : Word
  /-- The index register `I` (R39). -/
  i : Word
  /-- The call stack `S`, the last pushed address first (R40). -/
  stack : List Word
  /-- The delay timer `DT` (R42). -/
  dt : Byte
  /-- The sound timer `ST` (R43). -/
  st : Byte
  /-- The framebuffer `FB` (R44). -/
  fb : Framebuffer
  /-- The redraw flag (R47). -/
  redraw : Bool
  /-- The key state `K`, true for a pressed key (R51). -/
  keys : Vector Bool 16
  /-- Memory `M` (R53). -/
  mem : Memory
  /-- The fault status (R54). -/
  fault : FaultStatus
  /-- The parameter `STACK_DEPTH` of this core, `none` for infinity (R41). The model's own field: it is a parameter
  no operation changes, held here so that a claim over states holds for every depth (log entry 2). -/
  stackDepth : Option Nat
  /-- How many draws have been taken. The model's own field: the free values of R13 are the opaque constants of
  Config applied to it (log entries 3 and 4). -/
  draws : Nat
  deriving DecidableEq, Repr

/-- The reasons a step faults: there are none. The core's two faults are recorded in the state's `fault` field and
the step answers a next state (R12, R275); every other behaviour is given an effect (R270). Safe: no run is cut
short. -/
inductive Fault where
  deriving DecidableEq, Repr

/-- The reasons a step is refused. -/
inductive Refusal where
  /-- Raised by an arm of `exec` whose instruction has no meaning yet, under the instruction's mnemonic. No arm
  raises it in this model. Safe: the run stops. -/
  | notModelled (mnemonic : String)
  deriving DecidableEq, Repr

/-- What executing an instruction answers. -/
abbrev Result := Host.Outcome State Fault Refusal

/-- Every pixel off (R45). -/
def Framebuffer.off : Framebuffer := Vector.replicate 64 (Vector.replicate 32 false)

/-- The machine right after `power_on` (R300, the table of R61): every register, both timers, every byte of memory
zero, every pixel off, no key pressed, the stack empty, and the program counter at 0x200. `stackDepth` is the
spec's default (R41; log entry 2); `draws` starts at 0, the model's DESIGN CHOICE (log entry 3). -/
def State.reset : State where
  v := Vector.replicate 16 0
  pc := 0x200
  i := 0
  stack := []
  dt := 0
  st := 0
  fb := Framebuffer.off
  redraw := false
  keys := Vector.replicate 16 false
  mem := []
  fault := .noFault
  stackDepth := Config.defaultStackDepth
  draws := 0

end Sys2Proof.Machine
end

