-- ==== Sys2Proof/Machine/Ops.lean ====
section
/-! DEFINITION. The named operations over memory, registers, the stack, the program counter, the framebuffer and the
draws, and the one operation that raises a fault. Every meaning reads and writes the state through these. -/

namespace Sys2Proof.Machine

/-! ## Memory (spec/20_memory.md) -/

/-- What an address reads as that memory does not list: 0, the value at power-on (R53, R73). -/
def Memory.unlisted : Byte := 0

/-- The byte at a physical address. -/
def Memory.read : Memory → Nat → Byte
  | [], _ => Memory.unlisted
  | (k, b) :: rest, a => if k = a then b else Memory.read rest a

/-- Put a cell before the first cell of a greater address. -/
def Memory.insert (a : Nat) (b : Byte) : Memory → Memory
  | [] => [(a, b)]
  | (k, c) :: rest => if a < k then (a, b) :: (k, c) :: rest else (k, c) :: Memory.insert a b rest

/-- Take the cell of an address away. -/
def Memory.erase (m : Memory) (a : Nat) : Memory := m.filter (fun cell => cell.1 != a)

/-- Store a byte at a physical address, keeping the canonical form: the byte an unlisted address reads as removes
the cell. -/
def Memory.write (m : Memory) (a : Nat) (b : Byte) : Memory :=
  if b = Memory.unlisted then m.erase a else (m.erase a).insert a b

/-- The canonical form: addresses strictly rising and inside the 4096 bytes of R53, and no cell equal to what an
unlisted address reads as. -/
abbrev Memory.wf (m : Memory) : Prop :=
  m.Pairwise (fun c d => c.1 < d.1) ∧ ∀ c ∈ m, c.1 < Config.memSize ∧ c.2 ≠ Memory.unlisted

/-- The physical address of a 16-bit address: reduced modulo 4096 (R11, R74). -/
def physical (a : Word) : Nat := a.toNat % Config.memSize

/-- `MemRead(a, 1)` (R11). -/
def State.memRead (s : State) (a : Word) : Byte := Memory.read s.mem (physical a)

/-- `MemWrite(a, 1, b)` (R11). -/
def State.memWrite (s : State) (a : Word) (b : Byte) : State :=
  { s with mem := Memory.write s.mem (physical a) b }

/-! ## Registers (spec/10_state.md) -/

/-- Read `V[r]` (R30). -/
def State.readV (s : State) (r : Reg) : Byte := s.v[r]

/-- `V[r] <- b` (R30): no register is hard-wired. -/
def State.writeV (s : State) (r : Reg) (b : Byte) : State := { s with v := s.v.set r b }

/-- `I <- a` (R39). -/
def State.setI (s : State) (a : Word) : State := { s with i := a }

/-- `DT <- b` (R42). -/
def State.setDT (s : State) (b : Byte) : State := { s with dt := b }

/-- `ST <- b` (R43). -/
def State.setST (s : State) (b : Byte) : State := { s with st := b }

/-! ## The program counter -/

/-- `pc <- a` (R36). -/
def State.setPc (s : State) (a : Word) : State := { s with pc := a }

/-- The pre-increment of a step: `pc <- pc +16 2` (R132). -/
def State.advancePc (s : State) : State := { s with pc := s.pc + 2 }

/-- A skip: a further `pc <- pc +16 2` when the condition holds (R160). -/
def State.skipIf (s : State) (c : Bool) : State := if c then { s with pc := s.pc + 2 } else s

/-- Back to the instruction's own address: `pc <- pc -16 2` (R253). -/
def State.retreatPc (s : State) : State := { s with pc := s.pc - 2 }

/-- The opcode at the program counter: two bytes, each address reduced on its own (R76, R131). -/
def State.fetchWord (s : State) : Word := concatBytes (s.memRead s.pc) (s.memRead (s.pc + 1))

/-- The word stored big-endian at the program counter (R76), on a core that is not halted (R140). -/
def State.placeWord (s : State) (op : Word) : State :=
  { (s.memWrite s.pc (highByte op)).memWrite (s.pc + 1) (lowByte op) with fault := .noFault }

/-! ## Faults (spec/60_exceptions.md) -/

/-- Raise a fault: it is recorded in `fault`, and the step ends there with the effects before it standing (R12,
R275). There is no vector, no saved register and no return (R275, R276): only `reset` and `power_on` clear it. -/
def State.raise (s : State) (f : FaultStatus) : Result := .next { s with fault := f }

/-- The core is halted: its fault status is not `None` (R140, R276). -/
def State.halted (s : State) : Bool := s.fault != .noFault

/-! ## The call stack -/

/-- A finite stack that holds `STACK_DEPTH` entries (R153). -/
def State.stackFull (s : State) : Bool := s.stackDepth == some s.stack.length

/-- `S.push(a)` (R40). -/
def State.push (s : State) (a : Word) : State := { s with stack := a :: s.stack }

/-! ## The framebuffer (spec/44_display.md) -/

/-- The pixel `FB[c][r]` (R44). -/
def State.pixel (s : State) (c : Col) (r : Row) : Bool := s.fb[c][r]

/-- `FB[c][r] <- on` (R45). -/
def State.setPixel (s : State) (c : Col) (r : Row) (on : Bool) : State :=
  { s with fb := s.fb.set c (s.fb[c].set r on) }

/-- Every pixel off (R230). -/
def State.clearPixels (s : State) : State := { s with fb := Framebuffer.off }

/-- `redraw <- true` (R47). -/
def State.setRedraw (s : State) : State := { s with redraw := true }

/-- A set sprite bit meets a pixel: an off pixel is turned on, an on pixel is turned off and `VF` is set (R236). -/
def State.plot (s : State) (p : Col × Row) : State :=
  if s.pixel p.1 p.2 then (s.setPixel p.1 p.2 false).writeV vf 1 else s.setPixel p.1 p.2 true

/-- The pixels the set bits of a sprite's row `r` land on, the most significant bit first (R233), each coordinate
wrapping on its own (R235). -/
def spriteRowPixels (cx cy : Nat) (r : Nat) (row : Byte) : List (Col × Row) :=
  ((List.range 8).filter (fun c => row.getLsbD (7 - c))).map
    (fun c => (Fin.ofNat 64 (cx + c), Fin.ofNat 32 (cy + r)))

/-- The pixels the set bits of the sprite of `n` rows at `I` land on when it is anchored at `(cx, cy)`, in the
order they are drawn (R232, R233). -/
def State.spritePixels (s : State) (cx cy n : Nat) : List (Col × Row) :=
  (List.range n).flatMap (fun r => spriteRowPixels cx cy r (s.memRead (s.i + BitVec.ofNat 16 r)))

/-- Draw pixels one after the other (R232). -/
def State.plotAll (s : State) (ps : List (Col × Row)) : State := ps.foldl State.plot s

/-! ## Sequences of bytes -/

/-- The registers `V[0]` to `V[x]` in ascending order (R218, R220). -/
def regsUpTo (x : Reg) : List Reg := (List.finRange 16).filter (fun k => k ≤ x)

/-- The address `I +16 k` of the k-th byte of a multi-byte access (R71, R80). -/
def State.indexAddr (s : State) (k : Nat) : Word := s.i + BitVec.ofNat 16 k

/-- Store one register at its offset from `I` (R218). -/
def State.storeReg (s : State) (k : Reg) : State := s.memWrite (s.indexAddr k) (s.readV k)

/-- Load one register from its offset from `I` (R220). -/
def State.loadReg (s : State) (k : Reg) : State := s.writeV k (s.memRead (s.indexAddr k))

/-! ## Draws (spec/00_scope.md R13) -/

/-- `draw_byte()`: the free byte of the next draw (R13). -/
def State.drawByte (s : State) : Byte := Config.freeByte s.draws

/-- `draw_bool()`: the free boolean of the next draw (R13). -/
def State.drawBool (s : State) : Bool := Config.freeBool s.draws

/-- A draw is taken: the next one is another free value. -/
def State.takeDraw (s : State) : State := { s with draws := s.draws + 1 }

end Sys2Proof.Machine
end

