-- ==== Sys2Proof/Machine/Operands.lean ====
section
/-! DEFINITION. The operand forms: zero-extended immediates, the digit address of Fx29, the anchor of a sprite, the
key an instruction names and the decimal digits of a byte. -/

namespace Sys2Proof.Machine

/-- `zext_16` of a 12-bit address (R102). -/
def zextAddr (nnn : Addr12) : Word := nnn.setWidth 16

/-- `zext_16` of a byte (R9). -/
def zextByte (b : Byte) : Word := b.setWidth 16

/-- The address of the glyph of a digit, the digit not masked: `0x0050 +16 5 * zext_16(b)` (R214). -/
def glyphAddr (b : Byte) : Word :=
  BitVec.ofNat 16 Config.fontBase + BitVec.ofNat 16 Config.glyphBytes * zextByte b

/-- The sprite's column anchor, `V[x] mod 64` (R234). -/
def State.anchorCol (s : State) (x : Reg) : Nat := (s.readV x).toNat % 64

/-- The sprite's row anchor, `V[y] mod 32` (R234). -/
def State.anchorRow (s : State) (y : Reg) : Nat := (s.readV y).toNat % 32

/-- The hundreds digit of a byte (R216). -/
def hundreds (b : Byte) : Byte := BitVec.ofNat 8 (b.toNat / 100)

/-- The tens digit of a byte (R216). -/
def tens (b : Byte) : Byte := BitVec.ofNat 8 (b.toNat / 10 % 10)

/-- The ones digit of a byte (R216). -/
def ones (b : Byte) : Byte := BitVec.ofNat 8 (b.toNat % 10)

/-- A byte that names a key: keys exist for numbers 0 to 15 only (R161). -/
def namesKey (k : Byte) : Bool := k.toNat < 16

/-- The key test of Ex9E and ExA1: the state of key `k`, or the draw where `k` names no key (R162, R163). -/
def State.keyTest (s : State) (k : Byte) (draw : Bool) : Bool :=
  if h : k.toNat < 16 then s.keys[k.toNat] else draw

/-- The draw a key test takes: one where `k` names no key, none otherwise (R138, R163). -/
def State.takeKeyDraw (s : State) (k : Byte) : State := if namesKey k then s else s.takeDraw

/-- The pressed key of the lowest number, if any key is pressed (R253). -/
def State.firstPressed (s : State) : Option Reg := (List.finRange 16).find? (fun k => s.keys[k])

end Sys2Proof.Machine
end

