-- ==== Sys2Proof/Machine/Alu.lean ====
section
/-! DEFINITION. Register loads, arithmetic, logic, the flag ALU and the random byte (spec/42_alu.md). Where an
instruction writes a result and a flag, the two writes are made in the order of R183, so the second stands when
`x` is 15 (R194; log entry 8). -/

namespace Sys2Proof.Machine

/-- Write a result to `V[x]` and then a flag to `VF`, both computed beforehand (R183). -/
def State.writeResultThenFlag (s : State) (x : Reg) (result flag : Byte) : State :=
  (s.writeV x result).writeV vf flag

/-- `LD Vx, nn` (R180). -/
def execLdImm (x : Reg) (nn : Byte) (s : State) : Result := .next (s.writeV x nn)

/-- `ADD Vx, nn`: wraps, no flag effect (R181). -/
def execAddImm (x : Reg) (nn : Byte) (s : State) : Result := .next (s.writeV x (s.readV x + nn))

/-- `LD Vx, Vy` (R184). -/
def execLdReg (x y : Reg) (s : State) : Result := .next (s.writeV x (s.readV y))

/-- `OR Vx, Vy`: `VF` is not written (R185, R188). -/
def execOrReg (x y : Reg) (s : State) : Result := .next (s.writeV x (s.readV x ||| s.readV y))

/-- `AND Vx, Vy`: `VF` is not written (R186, R188). -/
def execAndReg (x y : Reg) (s : State) : Result := .next (s.writeV x (s.readV x &&& s.readV y))

/-- `XOR Vx, Vy`: `VF` is not written (R187, R188). -/
def execXorReg (x y : Reg) (s : State) : Result := .next (s.writeV x (s.readV x ^^^ s.readV y))

/-- `ADD Vx, Vy`, carry to `VF` (R189). -/
def execAddReg (x y : Reg) (s : State) : Result :=
  .next (s.writeResultThenFlag x (s.readV x + s.readV y) (carryFlag (s.readV x) (s.readV y)))

/-- `SUB Vx, Vy`, NOT borrow to `VF` (R190). -/
def execSubReg (x y : Reg) (s : State) : Result :=
  .next (s.writeResultThenFlag x (s.readV x - s.readV y) (notBorrowFlag (s.readV x) (s.readV y)))

/-- `SHR Vx, Vy`: the flag is written first, then `V[x]`, as the flag's write left it, is shifted (R183, R191). -/
def execShr (x _y : Reg) (s : State) : Result :=
  let flagged := s.writeV vf (lsbFlag (s.readV x))
  .next (flagged.writeV x (flagged.readV x >>> 1))

/-- `SUBN Vx, Vy`, `V[y] - V[x]`, NOT borrow to `VF` (R192). -/
def execSubn (x y : Reg) (s : State) : Result :=
  .next (s.writeResultThenFlag x (s.readV y - s.readV x) (notBorrowFlag (s.readV y) (s.readV x)))

/-- `SHL Vx, Vy`: the flag is written first, then `V[x]`, as the flag's write left it, is shifted (R183, R193). -/
def execShl (x _y : Reg) (s : State) : Result :=
  let flagged := s.writeV vf (msbFlag (s.readV x))
  .next (flagged.writeV x (flagged.readV x <<< 1))

/-- `V[x] <- rnd & nn` for the draw `rnd` of the step (R197). -/
def State.loadRandom (s : State) (x : Reg) (nn rnd : Byte) : State := s.writeV x (rnd &&& nn)

/-- `RND Vx, nn`: the draw is a free value (R13, R197; log entry 3). -/
def execRnd (x : Reg) (nn : Byte) (s : State) : Result := .next (s.takeDraw.loadRandom x nn s.drawByte)

end Sys2Proof.Machine
end

