-- ==== Sys2Proof/Machine/Control.lean ====
section
/-! DEFINITION. Jumps, call and return, the conditional skips and the data word (spec/41_control_flow.md,
spec/40_step.md R136). Every meaning runs after the pre-increment, so `pc` is the address of the next sequential
instruction (R132, R142). -/

namespace Sys2Proof.Machine

/-- `RET`: pop the return address into `pc`; on an empty stack raise StackUnderflow (R150, R271). -/
def execRet (s : State) : Result :=
  match s.stack with
  | [] => s.raise .stackUnderflow
  | a :: rest => .next { s with pc := a, stack := rest }

/-- `JP nnn` (R151). -/
def execJp (nnn : Addr12) (s : State) : Result := .next (s.setPc (zextAddr nnn))

/-- `CALL nnn`: push `pc` and jump; on a full stack of finite depth raise StackOverflow before the push (R152,
R153). -/
def execCall (nnn : Addr12) (s : State) : Result :=
  if s.stackFull then s.raise .stackOverflow
  else .next ((s.push s.pc).setPc (zextAddr nnn))

/-- `JP V0, nnn`: always `V[0]`, the sum not reduced when stored (R154). -/
def execJpV0 (nnn : Addr12) (s : State) : Result := .next (s.setPc (zextAddr nnn + zextByte (s.readV 0)))

/-- `SE Vx, nn` (R156). -/
def execSeImm (x : Reg) (nn : Byte) (s : State) : Result := .next (s.skipIf (s.readV x == nn))

/-- `SNE Vx, nn` (R157). -/
def execSneImm (x : Reg) (nn : Byte) (s : State) : Result := .next (s.skipIf (s.readV x != nn))

/-- `SE Vx, Vy` (R158). -/
def execSeReg (x y : Reg) (s : State) : Result := .next (s.skipIf (s.readV x == s.readV y))

/-- `SNE Vx, Vy` (R159). -/
def execSneReg (x y : Reg) (s : State) : Result := .next (s.skipIf (s.readV x != s.readV y))

/-- `SKP Vx`: skip if key `V[x]` is pressed, the draw deciding where `V[x]` names no key (R162, R163). -/
def execSkp (x : Reg) (s : State) : Result :=
  .next ((s.takeKeyDraw (s.readV x)).skipIf (s.keyTest (s.readV x) s.drawBool))

/-- `SKNP Vx`: skip if key `V[x]` is not pressed, the draw deciding where `V[x]` names no key (R163, R164). -/
def execSknp (x : Reg) (s : State) : Result :=
  .next ((s.takeKeyDraw (s.readV x)).skipIf (!s.keyTest (s.readV x) s.drawBool))

/-- `DW w`, an unrecognized word: a no-op, the step performs the fetch and the pre-increment and nothing else
(R108, R136). -/
def execDw (_w : Word) (s : State) : Result := .next s

end Sys2Proof.Machine
end

