-- ==== Sys2Proof/Machine/Display.lean ====
section
/-! DEFINITION. Clear screen and sprite draw (spec/44_display.md). -/

namespace Sys2Proof.Machine

/-- `CLS`: every pixel off, the redraw flag set (R230). -/
def execCls (s : State) : Result := .next s.clearPixels.setRedraw

/-- `DRW Vx, Vy, n`: the anchor is read, `VF` is cleared, the sprite is drawn, the redraw flag is set (R232, R234,
R236, R237; log entry 9). -/
def execDrw (x y : Reg) (n : Height) (s : State) : Result :=
  .next ((s.writeV vf 0).plotAll (s.spritePixels (s.anchorCol x) (s.anchorRow y) n)).setRedraw

end Sys2Proof.Machine
end

