-- ==== Sys2Proof/Machine/Index.lean ====
section
/-! DEFINITION. The index register and the transfers between registers and memory (spec/43_index_memory.md). None of
the transfers changes `I` (R222; log entry 11). -/

namespace Sys2Proof.Machine

/-- `LD I, nnn` (R210; log entry 6). -/
def execLdI (nnn : Addr12) (s : State) : Result := .next (s.setI (zextAddr nnn))

/-- `ADD I, Vx`: wraps at 16 bits, no flag (R212). -/
def execAddIVx (x : Reg) (s : State) : Result := .next (s.setI (s.i + zextByte (s.readV x)))

/-- `LD F, Vx`: the address of the glyph of `V[x]` (R214). -/
def execLdFVx (x : Reg) (s : State) : Result := .next (s.setI (glyphAddr (s.readV x)))

/-- `LD B, Vx`: the decimal digits of `V[x]` to `I`, `I +16 1`, `I +16 2` (R216). -/
def execLdBVx (x : Reg) (s : State) : Result :=
  .next (((s.memWrite (s.indexAddr 0) (hundreds (s.readV x))).memWrite (s.indexAddr 1) (tens (s.readV x))).memWrite
    (s.indexAddr 2) (ones (s.readV x)))

/-- `LD [I], Vx`: `V[0]` to `V[x]` to memory from `I` on (R218). -/
def execLdMemVx (x : Reg) (s : State) : Result := .next ((regsUpTo x).foldl State.storeReg s)

/-- `LD Vx, [I]`: memory from `I` on to `V[0]` to `V[x]` (R220). -/
def execLdVxMem (x : Reg) (s : State) : Result := .next ((regsUpTo x).foldl State.loadReg s)

end Sys2Proof.Machine
end

