-- ==== Sys2Proof/Machine/Timers.lean ====
section
/-! DEFINITION. The timer instructions and the key wait (spec/45_timers_keys.md). -/

namespace Sys2Proof.Machine

/-- `LD Vx, DT` (R250). -/
def execLdVxDt (x : Reg) (s : State) : Result := .next (s.writeV x s.dt)

/-- `LD DT, Vx` (R251). -/
def execLdDtVx (x : Reg) (s : State) : Result := .next (s.setDT (s.readV x))

/-- `LD ST, Vx` (R252). -/
def execLdStVx (x : Reg) (s : State) : Result := .next (s.setST (s.readV x))

/-- `LD Vx, K`: the lowest pressed key to `V[x]`; with no key pressed the instruction runs again at the next step,
`pc` being its own address (R253, R254). -/
def execLdVxK (x : Reg) (s : State) : Result :=
  match s.firstPressed with
  | some k => .next (s.writeV x (BitVec.ofNat 8 k))
  | none => .next s.retreatPc

end Sys2Proof.Machine
end

