-- ==== Sys2Proof/Machine/Step.lean ====
section
/-! DEFINITION. One step: fetch, pre-increment, decode, execute (spec/40_step.md R130). -/

namespace Sys2Proof.Machine

/-- The transaction `step`: a halted core changes nothing (R140); otherwise the word at `pc` is fetched, `pc`
advances by 2, and the instruction the word selects is executed (R130 to R134). -/
def step (s : State) : Host.Outcome State Fault Refusal :=
  if s.halted then .next s else exec (decodeWord s.fetchWord) s.advancePc

/-- The state with an instruction's word, numbered as spec/opcode_table.json numbers its bits, stored where the next
step fetches (R76, R131). A halted core fetches nothing (R140), so its fault is cleared too (log entry 18). -/
def State.withFetchWord (s : State) (nbits w : Nat) : State := s.placeWord (BitVec.ofNat 16 (w % 2 ^ nbits))

end Sys2Proof.Machine
end

