-- ==== Sys2Proof/Machine/Driver.lean ====
section
/-! DEFINITION. The other operations of the block, each one atomic transaction the host makes between steps
(spec/00_scope.md R14, R15): power-on, reset, the loads, the timer step, the key and redraw ports, the read ports. -/

namespace Sys2Proof.Machine

/-! ## Power-on, reset and loading (spec/70_reset_and_hazards.md) -/

/-- `power_on`: the reset state (R300), the core keeping its own parameter `STACK_DEPTH` and the draws already taken
not being drawn again (log entry 22). -/
def State.powerOn (s : State) : State := { State.reset with stackDepth := s.stackDepth, draws := s.draws }

/-- `reset()`: memory and the redraw flag are left as they are (R301; log entry 12). -/
def State.hostReset (s : State) : State :=
  { s with
    v := Vector.replicate 16 0
    pc := BitVec.ofNat 16 Config.progBase
    i := 0
    stack := []
    fb := Framebuffer.off
    dt := 0
    st := 0
    keys := Vector.replicate 16 false
    fault := .noFault }

/-- Copy bytes into memory from a physical address on, in ascending order (R304, R307). -/
def State.loadBytes (s : State) (base : Nat) : List Byte → State
  | [] => s
  | b :: rest => State.loadBytes { s with mem := Memory.write s.mem base b } (base + 1) rest

/-- `load_font(table)`: 80 bytes from 0x050 on (R304). -/
def State.loadFont (s : State) (table : Vector Byte 80) : State := s.loadBytes Config.fontBase table.toList

/-- What `load_program` returns (R307). -/
inductive LoadStatus where
  /-- `Ok`: the program is in memory. -/
  | ok
  /-- `RomTooLarge`: nothing is written (R308). -/
  | romTooLarge
  deriving DecidableEq, Repr

/-- A program that does not fit: `0x200 + len(bytes) > 4096` (R307). -/
def romTooLarge (bytes : List Byte) : Bool := Config.progBase + bytes.length > Config.memSize

/-- What `load_program(bytes)` returns (R307, R308). -/
def loadStatus (bytes : List Byte) : LoadStatus := if romTooLarge bytes then .romTooLarge else .ok

/-- The state after `load_program(bytes)`: the size is checked before any byte is written (R307, R308). -/
def State.loadProgram (s : State) (bytes : List Byte) : State :=
  if romTooLarge bytes then s else s.loadBytes Config.progBase bytes

/-! ## The timer step (spec/45_timers_keys.md) -/

/-- One count of a timer: down by 1, and 0 stays 0 (R260, R262). -/
def countDown (t : Byte) : Byte := if t = 0 then 0 else t - 1

/-- `step_timers()`: both timers count down on their own; a halted core's stand still (R260, R264). -/
def State.stepTimers (s : State) : State :=
  if s.halted then s else { s with dt := countDown s.dt, st := countDown s.st }

/-! ## The ports (spec/10_state.md) -/

/-- `set_keys`: all 16 keys at once (R52). -/
def State.setKeys (s : State) (ks : Vector Bool 16) : State := { s with keys := ks }

/-- `clear_redraw` (R49). -/
def State.clearRedraw (s : State) : State := { s with redraw := false }

/-- Read port `FB`, a pixel as its byte: 0xFF on, 0x00 off (R44, R46, R240). -/
def State.pixelByte (s : State) (c : Col) (r : Row) : Byte := if s.pixel c r then 0xFF else 0x00

/-- Read port `redraw` (R50). -/
def State.redrawPort (s : State) : Bool := s.redraw

/-- Output `sound_active`: `ST > 0` (R58). -/
def State.soundActive (s : State) : Bool := s.st.toNat > 0

/-- Read port `fault`, as its cause code (R60, R274). -/
def State.faultCode (s : State) : Nat :=
  match s.fault with
  | .noFault => 0
  | .stackUnderflow => 1
  | .stackOverflow => 2

/-! ## Transactions -/

/-- The operations that change the state (R14). The draws of `step` come from the state (log entry 3). -/
inductive Transaction where
  /-- `power_on` (R300). -/
  | powerOn
  /-- `reset` (R301). -/
  | reset
  /-- `load_font` (R304). -/
  | loadFont (table : Vector Byte 80)
  /-- `load_program` (R307). -/
  | loadProgram (bytes : List Byte)
  /-- `step` (R130). -/
  | step
  /-- `step_timers` (R260). -/
  | stepTimers
  /-- `set_keys` (R52). -/
  | setKeys (ks : Vector Bool 16)
  /-- `clear_redraw` (R49). -/
  | clearRedraw
  deriving DecidableEq, Repr

/-- The state one transaction leaves (R14, R15). -/
def Transaction.run (t : Transaction) (s : State) : Result :=
  match t with
  | .powerOn => .next s.powerOn
  | .reset => .next s.hostReset
  | .loadFont table => .next (s.loadFont table)
  | .loadProgram bytes => .next (s.loadProgram bytes)
  | .step => Sys2Proof.Machine.step s
  | .stepTimers => .next s.stepTimers
  | .setKeys ks => .next (s.setKeys ks)
  | .clearRedraw => .next s.clearRedraw

/-- A schedule of transactions, one after the other, in any interleaving (R15). -/
def runSchedule : List Transaction → State → Result
  | [], s => .next s
  | t :: rest, s =>
    match t.run s with
    | .next s' => runSchedule rest s'
    | .fault r => .fault r
    | .refused r => .refused r

end Sys2Proof.Machine
end

