-- ==== Sys2Proof/Safety.lean ====
section
/-! DEFINITION. What claims call a good state and a safe run. -/

namespace Sys2Proof.Machine

/-- A finite stack depth is positive and the stack holds at most that many entries (R41). -/
def State.stackWithin (s : State) : Bool := s.stackDepth.all (fun d => 0 < d && s.stack.length ≤ d)

/-- A recorded fault has its cause in the state: an underflow an empty stack, an overflow a stack that is full at its
finite depth (R271, R272, R275, R276). -/
def State.faultHasCause (s : State) : Bool :=
  match s.fault with
  | .noFault => true
  | .stackUnderflow => s.stack.isEmpty
  | .stackOverflow => s.stackFull

/-- The invariant of the core: memory in its canonical form, the stack within its depth, and a fault only with its
cause. -/
structure State.Inv (s : State) : Prop where
  /-- Memory is in its canonical form. -/
  memory : Memory.wf s.mem
  /-- The stack is within its depth. -/
  stack : s.stackWithin = true
  /-- A fault has its cause. -/
  cause : s.faultHasCause = true

/-- A state is reachable from the reset state of a core by some schedule of transactions (R15). -/
def State.Reachable (s : State) : Prop := ∃ ts, runSchedule ts State.reset = .next s

/-- A state is safe: the invariant holds and the core is not halted (R276). -/
def State.Safe (s : State) : Prop := s.Inv ∧ s.halted = false

end Sys2Proof.Machine
end

