-- ==== Sys2Proof/Certificates/Slice0/Obligations.lean ====
section
/-! DEFINITION. The statements for the provers, each a `def Obligations.<Name> : Prop`, and the tables of the spec they
are stated with. -/

namespace Sys2Proof.Spec

open Sys2Proof.Machine

/-- The word of an instruction has a row's fixed bits, and decodes to the instruction with all its operands (R103,
R104). -/
def HasPattern (pat mask : Word) (i : Instr) : Prop := encode i &&& mask = pat ∧ decodeWord (encode i) = i

/-- From `s` the instruction answers a next state in which `V[x]` holds `value` and nothing else has changed: no other
register, and no other part of the state. -/
def WritesRegister (s : State) (i : Instr) (x : Reg) (value : Byte) : Prop :=
  ∃ t, exec i s = .next t ∧ t.readV x = value ∧ (∀ r, r ≠ x → t.readV r = s.readV r) ∧ t = { s with v := t.v }

/-- The general registers an instruction writes: the table of R33. -/
def writesV : Instr → List Reg
  | .ldImm x _ | .addImm x _ | .rnd x _ => [x]
  | .ldReg x _ | .orReg x _ | .andReg x _ | .xorReg x _ => [x]
  | .addReg x _ | .subReg x _ | .subn x _ | .shr x _ | .shl x _ => [x, vf]
  | .drw _ _ _ => [vf]
  | .ldVxDt x | .ldVxK x => [x]
  | .ldVxMem x => (List.finRange 16).filter (fun k => k ≤ x)
  | _ => []

/-- The parts of the state that are neither general registers nor the program counter (R59). -/
inductive Part where
  /-- The index register. -/
  | index
  /-- The call stack. -/
  | stack
  /-- The delay timer. -/
  | dt
  /-- The sound timer. -/
  | st
  /-- The framebuffer. -/
  | fb
  /-- The redraw flag. -/
  | redraw
  /-- The fault status. -/
  | fault
  /-- Memory. -/
  | memory
  deriving DecidableEq, Repr

/-- The parts an instruction may write, from the rule of each (R39, R40, R42, R43, R45, R47, R54, R71, R137). -/
def writes : Instr → List Part
  | .cls | .drw _ _ _ => [.fb, .redraw]
  | .ret | .call _ => [.stack, .fault]
  | .ldI _ | .addIVx _ | .ldFVx _ => [.index]
  | .ldDtVx _ => [.dt]
  | .ldStVx _ => [.st]
  | .ldBVx _ | .ldMemVx _ => [.memory]
  | _ => []

/-- The bytes of memory an instruction stores to, each address by the function the meaning stores through: `I +16 k`
reduced modulo 4096 (R71, R216, R218). -/
def storedAt (s : State) : Instr → List Nat
  | .ldBVx _ => [physical (s.indexAddr 0), physical (s.indexAddr 1), physical (s.indexAddr 2)]
  | .ldMemVx x => (List.range (x.val + 1)).map (fun k => physical (s.indexAddr k))
  | _ => []

/-- An instruction that takes a draw: Cxnn, and the key skips where `V[x]` names no key (R138). -/
def takesDraw (s : State) : Instr → Bool
  | .rnd _ _ => true
  | .skp x | .sknp x => 16 ≤ (s.readV x).toNat
  | _ => false

/-- Whether a key skip finds its key pressed: the key of number `V[x]`, or the free boolean of the next draw where
`V[x]` names no key (R162, R163). -/
def keyDown (s : State) (x : Reg) : Bool :=
  if h : (s.readV x).toNat < 16 then s.keys[(s.readV x).toNat] else Config.freeBool s.draws

/-- Where a step that fetched `i` at `s.pc` leaves the program counter (R135, with the targets of R150 to R154). -/
def pcAfter (s : State) : Instr → Word
  | .ret => s.stack.head?.getD (s.pc + 2)
  | .jp nnn => BitVec.ofNat 16 nnn.toNat
  | .call nnn => if s.stackDepth = some s.stack.length then s.pc + 2 else BitVec.ofNat 16 nnn.toNat
  | .jpV0 nnn => BitVec.ofNat 16 (nnn.toNat + (s.readV 0).toNat)
  | .seImm x nn => if s.readV x = nn then s.pc + 4 else s.pc + 2
  | .sneImm x nn => if s.readV x = nn then s.pc + 2 else s.pc + 4
  | .seReg x y => if s.readV x = s.readV y then s.pc + 4 else s.pc + 2
  | .sneReg x y => if s.readV x = s.readV y then s.pc + 2 else s.pc + 4
  | .skp x => if keyDown s x then s.pc + 4 else s.pc + 2
  | .sknp x => if keyDown s x then s.pc + 2 else s.pc + 4
  | .ldVxK _ => if s.keys = Vector.replicate 16 false then s.pc else s.pc + 2
  | _ => s.pc + 2

/-- A set bit of the sprite drawn by `DRW Vx, Vy, n` lands on pixel `(c, r)`: the pixel's offset from the anchor, each
coordinate modulo the screen on its own, is a row of the sprite and a column of that row (R233, R234, R235). -/
def spriteCovers (s : State) (x y : Reg) (n : Height) (c : Col) (r : Row) : Bool :=
  let dc := (c.val + 64 - (s.readV x).toNat % 64) % 64
  let dr := (r.val + 32 - (s.readV y).toNat % 32) % 32
  dc < 8 && dr < n.val && (s.memRead (s.i + BitVec.ofNat 16 dr)).getLsbD (7 - dc)

end Sys2Proof.Spec

open Sys2Proof Sys2Proof.Machine

/-! ## The machine -/

/-- R61, R300: the state after `power_on`. That `pc` is 0x200 is the spec's decision D22, that memory is zero and the
redraw flag off is its decision D12, the fault status is its decision D7 (log entry 13), and that `State.reset` is the
state after `power_on` is the model's choice (log entry 12). `stackDepth` and `draws` are the model's own fields (log
entries 2 and 3): the statement says nothing of their values, only that `power_on` keeps them (the model's choice, log
entry 22). -/
def Obligations.PowerOnStateIsZeroed : Prop :=
  (∀ r, State.reset.readV r = 0) ∧ State.reset.pc = 0x200 ∧ State.reset.i = 0 ∧ State.reset.stack = [] ∧
  State.reset.dt = 0 ∧ State.reset.st = 0 ∧ (∀ c r, State.reset.pixel c r = false) ∧
  (∀ k : Reg, State.reset.keys[k] = false) ∧ State.reset.redraw = false ∧ (∀ a, State.reset.memRead a = 0) ∧
  State.reset.fault = .noFault ∧
  ∀ s, Transaction.powerOn.run s = .next { State.reset with stackDepth := s.stackDepth, draws := s.draws }

/-- R301: what `reset` changes, and that memory and the redraw flag are not changed (the spec's own decision D12; log
entry 12), and that the fault is cleared (its decision D7; log entry 13). -/
def Obligations.ResetClearsAllButMemoryAndRedraw : Prop :=
  ∀ s, ∃ t, Transaction.reset.run s = .next t ∧ (∀ r, t.readV r = 0) ∧ t.pc = 0x200 ∧ t.i = 0 ∧ t.stack = [] ∧
    (∀ c r, t.pixel c r = false) ∧ t.dt = 0 ∧ t.st = 0 ∧ (∀ k : Reg, t.keys[k] = false) ∧ t.fault = .noFault ∧
    (∀ a, t.memRead a = s.memRead a) ∧ t.redraw = s.redraw ∧
    t = { s with v := t.v, pc := t.pc, i := t.i, stack := t.stack, fb := t.fb, dt := t.dt, st := t.st, keys := t.keys,
                 fault := t.fault }

/-- The reset state has the invariant. -/
def Obligations.ResetSatisfiesInvariant : Prop := State.reset.Inv

/-- Every step keeps the invariant: memory in its canonical form inside 4096 bytes (R53), the stack within a finite
positive depth (R41), and a recorded fault only with its cause (R271, R272). -/
def Obligations.StepKeepsInvariant : Prop := ∀ s t : State, s.Inv → step s = .next t → t.Inv

/-- Every transaction of the host and the core keeps the invariant, from every state that has it (R14, R15). -/
def Obligations.EveryTransactionKeepsInvariant : Prop :=
  ∀ (tr : Transaction) (s t : State), s.Inv → tr.run s = .next t → t.Inv

/-- R130 to R133: with the core not halted, a step is `exec` of the instruction the two bytes at `pc` decode to, in
the state whose `pc` has moved past them and that is otherwise the same. The width of the addition is the spec's
decision D9 (log entry 10). -/
def Obligations.StepRunsDecodedInstruction : Prop :=
  ∀ (s : State) (i : Instr), s.fault = .noFault →
    decodeBytes [s.memRead s.pc, s.memRead (s.pc + 1)] = .ok (i, []) → step s = exec i { s with pc := s.pc + 2 }

/-- R131: the fetched word is the byte at `pc` and the byte after it, the first the high one, each address reduced
modulo 4096, whatever `pc` is. -/
def Obligations.FetchIsBigEndianModulo4096 : Prop :=
  ∀ s : State, s.fetchWord.toNat =
    (Memory.read s.mem (s.pc.toNat % 4096)).toNat * 256 + (Memory.read s.mem ((s.pc.toNat + 1) % 4096)).toNat

/-- A word the model's interface places is the instruction the very next step runs (the model's own operation, log
entry 18). -/
def Obligations.PlacedWordIsNextInstruction : Prop :=
  ∀ (s : State) (nbits w : Nat) (i : Instr), decodeTableWord nbits w = some i →
    step (s.withFetchWord nbits w) = exec i (s.withFetchWord nbits w).advancePc

/-- R110, R141: every state has a next one. No word is refused at decode, no instruction is refused or stops, and no
step fails to end. That a raised fault and the step of a halted core answer a next state rather than stop is the
model's choice (log entry 13: `Fault` has no constructor) over the spec's decisions D7, the fault recorded in the
state, and D13, the halted core. -/
def Obligations.EveryStepAnswersNext : Prop :=
  (∀ s : State, ∃ t, step s = .next t) ∧ ∀ (i : Instr) (s : State), ∃ t, exec i s = .next t

/-- R140, R260: a step and a timer step of a halted core change nothing (the spec's decision D13; that the step
answers the same state as a next state is the model's choice; log entry 13). -/
def Obligations.HaltedCoreStandsStill : Prop :=
  ∀ s : State, s.fault ≠ .noFault → step s = .next s ∧ Transaction.stepTimers.run s = .next s

/-- R54, R276: no transaction but `reset` and `power_on` changes a recorded fault, and until then neither the program
counter, the registers nor the stack change (the spec's decisions D7 and D13; log entry 13). -/
def Obligations.FaultIsStickyUntilReset : Prop :=
  ∀ (tr : Transaction) (s t : State), s.fault ≠ .noFault → tr ≠ .powerOn → tr ≠ .reset → tr.run s = .next t →
    t.fault = s.fault ∧ t.pc = s.pc ∧ t.v = s.v ∧ t.i = s.i ∧ t.stack = s.stack ∧ t.dt = s.dt ∧ t.st = s.st

/-- R135: where every step leaves the program counter. That a return on an empty stack leaves `pc + 2` is the spec's
decision D23 (log entry 13), that an overflowing call does is its decision D8 (log entries 2 and 17), that a stored
`pc` is 16 bits wide and not reduced modulo 4096 is its decision D9 (log entry 10), and the free boolean of a key skip
is its decision D6 (log entry 4). -/
def Obligations.PcAfterEveryStep : Prop :=
  ∀ s t : State, s.fault = .noFault → step s = .next t → t.pc = Spec.pcAfter s (decodeWord s.fetchWord)

/-- R32, R33: an instruction writes no general register but those the table of R33 lists. That the logic instructions
and Fx1E write no `VF` is the spec's decision D25 (log entry 21). -/
def Obligations.OnlyListedRegistersWritten : Prop :=
  ∀ (i : Instr) (s t : State) (r : Reg), exec i s = .next t → r ∉ Spec.writesV i → t.readV r = s.readV r

/-- R137: an instruction writes no part of the state but those its rule names (the spec's decision D25; log entry 21),
and none writes the key state. -/
def Obligations.OnlyListedStateWritten : Prop :=
  ∀ (i : Instr) (s t : State), exec i s = .next t →
    (.index ∉ Spec.writes i → t.i = s.i) ∧ (.stack ∉ Spec.writes i → t.stack = s.stack) ∧
    (.dt ∉ Spec.writes i → t.dt = s.dt) ∧ (.st ∉ Spec.writes i → t.st = s.st) ∧
    (.fb ∉ Spec.writes i → ∀ c r, t.pixel c r = s.pixel c r) ∧ (.redraw ∉ Spec.writes i → t.redraw = s.redraw) ∧
    (.fault ∉ Spec.writes i → t.fault = s.fault) ∧
    (.memory ∉ Spec.writes i → ∀ a, t.memRead a = s.memRead a) ∧ t.keys = s.keys

/-- R71: every byte of memory outside the bytes an instruction stores to reads as before. -/
def Obligations.OnlyStoredBytesChange : Prop :=
  ∀ (i : Instr) (s t : State) (a : Word), exec i s = .next t → physical a ∉ Spec.storedAt s i →
    t.memRead a = s.memRead a

/-- R138: an instruction that takes no draw runs alike whatever the draws are and takes none; one that takes a draw
takes one (the spec's decisions D6 and D14; the counter is the model's own field, log entries 3 and 4). -/
def Obligations.DrawsAffectOnlyDrawingInstructions : Prop :=
  ∀ (i : Instr) (s : State),
    (Spec.takesDraw s i = false →
      ∃ t, exec i s = .next t ∧ t.draws = s.draws ∧ ∀ n, exec i { s with draws := n } = .next { t with draws := n }) ∧
    (Spec.takesDraw s i = true → ∃ t, exec i s = .next t ∧ t.draws = s.draws + 1)

/-- R48: the core never clears the redraw flag; a step of any other instruction than 00E0 and Dxyn leaves it as it
was. -/
def Obligations.RedrawChangedOnlyByDisplayInstructions : Prop :=
  ∀ s t : State, step s = .next t →
    (s.redraw = true → t.redraw = true) ∧
    (decodeWord s.fetchWord ≠ .cls → (∀ x y n, decodeWord s.fetchWord ≠ .drw x y n) → t.redraw = s.redraw)

/-- Memory is canonical: two memories in that form that read alike at every address are equal data (R53; the form is
the model's own, log entry 14). -/
def Obligations.MemoriesThatReadAlikeAreEqual : Prop :=
  ∀ m m' : Memory, m.wf → m'.wf → (∀ a, m.read a = m'.read a) → m = m'

/-! ## Encoding -/

/-- R103, R104: every well-formed instruction, with every operand, is what its word decodes to, as a word and as the
two bytes memory holds. -/
def Obligations.DecodeOfEncodeIsInstruction : Prop :=
  ∀ (i : Instr) (rest : List Byte), i.wellFormed = true →
    decodeWord (encode i) = i ∧ decodeBytes (highByte (encode i) :: lowByte (encode i) :: rest) = .ok (i, rest)

/-- R110: every word is exactly one well-formed instruction, and no two words are one instruction. -/
def Obligations.EncodeOfDecodeIsWord : Prop :=
  ∀ w : Word, encode (decodeWord w) = w ∧ (decodeWord w).wellFormed = true

/-- R103, R104, R108: a word matches a row of the opcode map exactly when it decodes to that row's instruction, and
none exactly when it decodes to the data word. That the rows of families 0, 5 and 9 match exactly is the spec's
decision D3 (log entry 7), and the row of Annn is its general knowledge (its decision D2; log entry 6). -/
def Obligations.DecoderFollowsOpcodeMap : Prop :=
  ∀ w : Word,
    (∀ (k : Nat) (row : OpcodeRow), opcodeTable[k]? = some row →
      (w &&& row.mask = row.pat ↔ (decodeWord w).tableRow = k)) ∧
    ((∀ row ∈ opcodeTable, w &&& row.mask ≠ row.pat) ↔ decodeWord w = .dw w)

/-- R104: words written out from the patterns of the map decode to the instructions they stand for. That 0xA300 is `LD
I` is the spec's general knowledge (its decision D2; log entry 6, PRESUMED), and that 0x5121 is a data word is its
decision D3 (log entry 7). -/
def Obligations.WrittenWordsDecode : Prop :=
  decodeWord 0x00EE = .ret ∧ decodeWord 0x1204 = .jp 0x204 ∧ decodeWord 0x4A05 = .sneImm 10 0x05 ∧
  decodeWord 0x8AF4 = .addReg 10 15 ∧ decodeWord 0xA300 = .ldI 0x300 ∧ decodeWord 0xD125 = .drw 1 2 5 ∧
  decodeWord 0xE1A1 = .sknp 1 ∧ decodeWord 0xF265 = .ldVxMem 2 ∧ decodeWord 0x5121 = .dw 0x5121

/-! ## Control transfer -/

/-- R150: `RET` pops the last pushed address into `pc`; on an empty stack it raises StackUnderflow and changes nothing
else (what the fault leaves is the spec's decision D23, that it is recorded in the state its decision D7; log entry
13). -/
def Obligations.ReturnPopsOrUnderflows : Prop :=
  ∀ s : State, Spec.HasPattern 0x00EE 0xFFFF .ret ∧
    (∀ a rest, s.stack = a :: rest → exec .ret s = .next { s with pc := a, stack := rest }) ∧
    (s.stack = [] → exec .ret s = .next { s with fault := .stackUnderflow })

/-- R151, R154: a jump replaces `pc` by its target and changes nothing else. That a target of 0x1000 or more is stored
not reduced is the spec's decision D9 (log entry 10). -/
def Obligations.JumpsReplacePc : Prop :=
  ∀ (s : State) (nnn : Addr12),
    Spec.HasPattern 0x1000 0xF000 (.jp nnn) ∧ Spec.HasPattern 0xB000 0xF000 (.jpV0 nnn) ∧
    (∃ t, exec (.jp nnn) s = .next t ∧ t.pc.toNat = nnn.toNat ∧ t = { s with pc := t.pc }) ∧
    (∃ t, exec (.jpV0 nnn) s = .next t ∧ t.pc.toNat = nnn.toNat + (s.readV 0).toNat ∧ t = { s with pc := t.pc })

/-- R141, R151: a step of a jump to its own address leaves the whole state as it was. -/
def Obligations.JumpToItselfRepeats : Prop :=
  ∀ (s : State) (nnn : Addr12), s.fault = .noFault → s.fetchWord = encode (.jp nnn) → s.pc.toNat = nnn.toNat →
    step s = .next s

/-- R152, R153: `CALL` pushes `pc` and jumps, unless the stack is full at its finite depth: then it raises
StackOverflow before the push (the spec's decision D8; log entries 2, 13 and 17). -/
def Obligations.CallPushesOrOverflows : Prop :=
  ∀ (s : State) (nnn : Addr12), Spec.HasPattern 0x2000 0xF000 (.call nnn) ∧
    (s.stackDepth ≠ some s.stack.length →
      ∃ t, exec (.call nnn) s = .next t ∧ t.stack = s.pc :: s.stack ∧ t.pc.toNat = nnn.toNat ∧
        t = { s with pc := t.pc, stack := t.stack }) ∧
    (s.stackDepth = some s.stack.length → exec (.call nnn) s = .next { s with fault := .stackOverflow })

/-- R150, R152: a return with the stack as a call left it resumes at the instruction after the call, with the stack as
it was before the call. -/
def Obligations.ReturnResumesAfterCall : Prop :=
  ∀ (s t t' : State) (nnn : Addr12), s.stackDepth ≠ some s.stack.length → exec (.call nnn) s = .next t →
    t'.stack = t.stack → ∃ u, exec .ret t' = .next u ∧ u.pc = s.pc ∧ u.stack = s.stack

/-- R156, R157: the skips on an immediate. -/
def Obligations.ImmediateSkips : Prop :=
  ∀ (s : State) (x : Reg) (nn : Byte),
    Spec.HasPattern 0x3000 0xF000 (.seImm x nn) ∧ Spec.HasPattern 0x4000 0xF000 (.sneImm x nn) ∧
    exec (.seImm x nn) s = .next { s with pc := if s.readV x = nn then s.pc + 2 else s.pc } ∧
    exec (.sneImm x nn) s = .next { s with pc := if s.readV x = nn then s.pc else s.pc + 2 }

/-- R158, R159: the skips on two registers; with `x = y` the first always skips and the second never does. -/
def Obligations.RegisterSkips : Prop :=
  ∀ (s : State) (x y : Reg),
    Spec.HasPattern 0x5000 0xF00F (.seReg x y) ∧ Spec.HasPattern 0x9000 0xF00F (.sneReg x y) ∧
    exec (.seReg x y) s = .next { s with pc := if s.readV x = s.readV y then s.pc + 2 else s.pc } ∧
    exec (.sneReg x y) s = .next { s with pc := if s.readV x = s.readV y then s.pc else s.pc + 2 } ∧
    exec (.seReg x x) s = .next { s with pc := s.pc + 2 } ∧ exec (.sneReg x x) s = .next s

/-- R162, R164: the skips on a key. Where `V[x]` names a key, that key decides and no draw is taken; where it names
none the free boolean of the next draw decides and one draw is taken (R163, the spec's decision D6; log entry 4). -/
def Obligations.KeySkips : Prop :=
  ∀ (s : State) (x : Reg),
    Spec.HasPattern 0xE09E 0xF0FF (.skp x) ∧ Spec.HasPattern 0xE0A1 0xF0FF (.sknp x) ∧
    (∀ h : (s.readV x).toNat < 16,
      exec (.skp x) s = .next { s with pc := if s.keys[(s.readV x).toNat] = true then s.pc + 2 else s.pc } ∧
      exec (.sknp x) s = .next { s with pc := if s.keys[(s.readV x).toNat] = true then s.pc else s.pc + 2 }) ∧
    (16 ≤ (s.readV x).toNat →
      exec (.skp x) s = .next { s with pc := if Config.freeBool s.draws = true then s.pc + 2 else s.pc,
                                       draws := s.draws + 1 } ∧
      exec (.sknp x) s = .next { s with pc := if Config.freeBool s.draws = true then s.pc else s.pc + 2,
                                        draws := s.draws + 1 })

/-- R136: a step that fetches an unrecognized word makes the pre-increment of R132 and does nothing else. -/
def Obligations.UnrecognizedWordIsNoOp : Prop :=
  (∀ s : State, s.fault = .noFault → (∀ row ∈ opcodeTable, s.fetchWord &&& row.mask ≠ row.pat) →
    step s = .next { s with pc := s.pc + 2 }) ∧
  ∀ (w : Word) (s : State), exec (.dw w) s = .next s

/-! ## Registers, arithmetic and flags -/

/-- R180, R184: the immediate load and the register move write their value to `V[x]`; no other register and nothing
else changes. -/
def Obligations.LoadsWriteTheirOperand : Prop :=
  ∀ (s : State) (x y : Reg) (nn : Byte),
    Spec.HasPattern 0x6000 0xF000 (.ldImm x nn) ∧ Spec.HasPattern 0x8000 0xF00F (.ldReg x y) ∧
    Spec.WritesRegister s (.ldImm x nn) x nn ∧ Spec.WritesRegister s (.ldReg x y) x (s.readV y)

/-- R185 to R188: the logic instructions write the bitwise result to `V[x]`; no other register, `VF` among them, and
nothing else changes (that `VF` is left alone is the spec's decision D25; log entry 21). -/
def Obligations.LogicWritesBitwiseResult : Prop :=
  ∀ (s : State) (x y : Reg),
    Spec.HasPattern 0x8001 0xF00F (.orReg x y) ∧ Spec.HasPattern 0x8002 0xF00F (.andReg x y) ∧
    Spec.HasPattern 0x8003 0xF00F (.xorReg x y) ∧
    Spec.WritesRegister s (.orReg x y) x (s.readV x ||| s.readV y) ∧
    Spec.WritesRegister s (.andReg x y) x (s.readV x &&& s.readV y) ∧
    Spec.WritesRegister s (.xorReg x y) x (s.readV x ^^^ s.readV y)

/-- R181: the immediate add wraps modulo 256 and writes no flag. -/
def Obligations.AddImmediateWraps : Prop :=
  ∀ (s : State) (x : Reg) (nn : Byte), Spec.HasPattern 0x7000 0xF000 (.addImm x nn) ∧
    ∃ t, exec (.addImm x nn) s = .next t ∧ (t.readV x).toNat = ((s.readV x).toNat + nn.toNat) % 256 ∧
      (∀ r, r ≠ x → t.readV r = s.readV r) ∧ t = { s with v := t.v }

/-- R189: the sum to `V[x]` and the carry to `VF`, which is written last, so that it stands when `x` is 15 (R183,
R194, the spec's decision D4; log entry 8). -/
def Obligations.AddWritesCarry : Prop :=
  ∀ (s : State) (x y : Reg), Spec.HasPattern 0x8004 0xF00F (.addReg x y) ∧
    ∃ t, exec (.addReg x y) s = .next t ∧
      (x ≠ vf → (t.readV x).toNat = ((s.readV x).toNat + (s.readV y).toNat) % 256) ∧
      (t.readV vf).toNat = (if (s.readV x).toNat + (s.readV y).toNat > 255 then 1 else 0) ∧
      (∀ r, r ≠ x → r ≠ vf → t.readV r = s.readV r) ∧ t = { s with v := t.v }

/-- R190, R192: the differences to `V[x]` and NOT borrow to `VF`, which is written last, so that it stands when `x` is
15 (R183, R194, the spec's decision D4; log entry 8). -/
def Obligations.SubtractionsWriteNotBorrow : Prop :=
  ∀ (s : State) (x y : Reg),
    Spec.HasPattern 0x8005 0xF00F (.subReg x y) ∧ Spec.HasPattern 0x8007 0xF00F (.subn x y) ∧
    (∃ t, exec (.subReg x y) s = .next t ∧
      (x ≠ vf → (t.readV x).toNat = ((s.readV x).toNat + 256 - (s.readV y).toNat) % 256) ∧
      (t.readV vf).toNat = (if (s.readV y).toNat > (s.readV x).toNat then 0 else 1) ∧
      (∀ r, r ≠ x → r ≠ vf → t.readV r = s.readV r) ∧ t = { s with v := t.v }) ∧
    (∃ t, exec (.subn x y) s = .next t ∧
      (x ≠ vf → (t.readV x).toNat = ((s.readV y).toNat + 256 - (s.readV x).toNat) % 256) ∧
      (t.readV vf).toNat = (if (s.readV x).toNat > (s.readV y).toNat then 0 else 1) ∧
      (∀ r, r ≠ x → r ≠ vf → t.readV r = s.readV r) ∧ t = { s with v := t.v })

/-- R191, R193: the shifts of `V[x]`, whatever `y` is, with the bit shifted out to `VF`. With `x = 15` the flag is
written first and then shifted: `VF` ends 0 after a right shift, and 2 or 0 after a left one (R194, the spec's
decision D4; log entry 8). -/
def Obligations.ShiftsWriteBitShiftedOut : Prop :=
  ∀ (s : State) (x y : Reg),
    Spec.HasPattern 0x8006 0xF00F (.shr x y) ∧ Spec.HasPattern 0x800E 0xF00F (.shl x y) ∧
    (∃ t, exec (.shr x y) s = .next t ∧
      (x ≠ vf → (t.readV x).toNat = (s.readV x).toNat / 2 ∧ (t.readV vf).toNat = (s.readV x).toNat % 2) ∧
      (x = vf → t.readV vf = 0) ∧
      (∀ r, r ≠ x → r ≠ vf → t.readV r = s.readV r) ∧ t = { s with v := t.v }) ∧
    (∃ t, exec (.shl x y) s = .next t ∧
      (x ≠ vf → (t.readV x).toNat = (s.readV x).toNat * 2 % 256 ∧ (t.readV vf).toNat = (s.readV x).toNat / 128) ∧
      (x = vf → t.readV vf = if 0x80 ≤ (s.readV vf).toNat then 2 else 0) ∧
      (∀ r, r ≠ x → r ≠ vf → t.readV r = s.readV r) ∧ t = { s with v := t.v })

/-- R197: the random byte is the free byte of the next draw, ANDed with `nn` bit by bit; one draw is taken (the spec's
decision D14; log entry 3). -/
def Obligations.RandomByteIsMasked : Prop :=
  ∀ (s : State) (x : Reg) (nn : Byte), Spec.HasPattern 0xC000 0xF000 (.rnd x nn) ∧
    ∃ t, exec (.rnd x nn) s = .next t ∧
      (∀ b, (t.readV x).getLsbD b = ((Config.freeByte s.draws).getLsbD b && nn.getLsbD b)) ∧
      (∀ r, r ≠ x → t.readV r = s.readV r) ∧ t = { s with v := t.v, draws := s.draws + 1 }

/-! ## Index register and memory -/

/-- R214: the glyph address of `V[x]`, not masked to a digit. -/
def Obligations.FontAddressIsFiveTimesDigit : Prop :=
  ∀ (s : State) (x : Reg), Spec.HasPattern 0xF029 0xF0FF (.ldFVx x) ∧
    ∃ t, exec (.ldFVx x) s = .next t ∧ t.i.toNat = 0x050 + 5 * (s.readV x).toNat ∧ t = { s with i := t.i }

/-- R210, R212: `I` set to an address, and added to modulo 65536 with no flag. That Annn is an instruction is the
spec's general knowledge (its decision D2; log entry 6), and that Fx1E writes no flag is its decision D25 (log entry
21). -/
def Obligations.IndexLoadAndAdd : Prop :=
  ∀ (s : State) (nnn : Addr12) (x : Reg),
    Spec.HasPattern 0xA000 0xF000 (.ldI nnn) ∧ Spec.HasPattern 0xF01E 0xF0FF (.addIVx x) ∧
    (∃ t, exec (.ldI nnn) s = .next t ∧ t.i.toNat = nnn.toNat ∧ t = { s with i := t.i }) ∧
    (∃ t, exec (.addIVx x) s = .next t ∧ t.i.toNat = (s.i.toNat + (s.readV x).toNat) % 65536 ∧ t = { s with i := t.i })

/-- R216: the three decimal digits of `V[x]` at `I`, `I + 1` and `I + 2`, each address reduced modulo 4096; every
other byte, `I` and everything else unchanged. That `I` is left alone is the spec's decision D10 (R222; log entry 11).
-/
def Obligations.DecimalDigitsAreStored : Prop :=
  ∀ (s : State) (x : Reg), Spec.HasPattern 0xF033 0xF0FF (.ldBVx x) ∧
    ∃ t, exec (.ldBVx x) s = .next t ∧
      (t.memRead (s.indexAddr 0)).toNat = (s.readV x).toNat / 100 ∧
      (t.memRead (s.indexAddr 1)).toNat = (s.readV x).toNat / 10 % 10 ∧
      (t.memRead (s.indexAddr 2)).toNat = (s.readV x).toNat % 10 ∧
      (∀ a, physical a ∉ Spec.storedAt s (.ldBVx x) → t.memRead a = s.memRead a) ∧ t = { s with mem := t.mem }

/-- R218: `V[0]` to `V[x]` to memory from `I` on, each address reduced modulo 4096; every other byte, `I` and
everything else unchanged. That `I` is left alone is the spec's decision D10 (R222; log entry 11). -/
def Obligations.RegistersAreStored : Prop :=
  ∀ (s : State) (x : Reg), Spec.HasPattern 0xF055 0xF0FF (.ldMemVx x) ∧
    ∃ t, exec (.ldMemVx x) s = .next t ∧
      (∀ k : Reg, k ≤ x → t.memRead (s.indexAddr k) = s.readV k) ∧
      (∀ a, physical a ∉ Spec.storedAt s (.ldMemVx x) → t.memRead a = s.memRead a) ∧ t = { s with mem := t.mem }

/-- R220: memory from `I` on to `V[0]` to `V[x]`; the registers above `x`, `I` and everything else unchanged. That `I`
is left alone is the spec's decision D10 (R222; log entry 11). -/
def Obligations.RegistersAreLoaded : Prop :=
  ∀ (s : State) (x : Reg), Spec.HasPattern 0xF065 0xF0FF (.ldVxMem x) ∧
    ∃ t, exec (.ldVxMem x) s = .next t ∧
      (∀ k : Reg, k ≤ x → t.readV k = s.memRead (s.indexAddr k)) ∧
      (∀ k : Reg, x < k → t.readV k = s.readV k) ∧ t = { s with v := t.v }

/-- R223: Fx55 and then Fx65 with the same `x`, `I` and memory restores `V[0]` to `V[x]`, whatever else changed in
between. -/
def Obligations.StoreThenLoadRestoresRegisters : Prop :=
  ∀ (s t u : State) (x : Reg), exec (.ldMemVx x) s = .next t → u.mem = t.mem → u.i = s.i →
    ∃ w, exec (.ldVxMem x) u = .next w ∧ ∀ k : Reg, k ≤ x → w.readV k = s.readV k

/-- R78, R85, R316: the next fetch from bytes that Fx55 wrote sees them, the register at the lower address as the high
byte. -/
def Obligations.StoredBytesAreFetched : Prop :=
  ∀ (s t : State) (x k k' : Reg), exec (.ldMemVx x) s = .next t → k.val + 1 = k'.val → k' ≤ x →
    (t.setPc (s.indexAddr k)).fetchWord.toNat = (s.readV k).toNat * 256 + (s.readV k').toNat

/-! ## Display -/

/-- R230: every pixel off, the redraw flag set, nothing else changed. -/
def Obligations.ClearScreen : Prop :=
  ∀ s : State, Spec.HasPattern 0x00E0 0xFFFF .cls ∧
    ∃ t, exec .cls s = .next t ∧ (∀ c r, t.pixel c r = false) ∧ t.redraw = true ∧
      t = { s with fb := t.fb, redraw := t.redraw }

/-- R232 to R237: the net effect of a sprite draw on every pixel, `VF`, the redraw flag and everything else, for every
`x`, `y` and `n`. That the anchor is read before `VF` is cleared is the spec's decision D5 (log entry 9); the net
effect is its own inference from the pixel rule (R236, R238). -/
def Obligations.SpriteDrawXorsPixels : Prop :=
  ∀ (s : State) (x y : Reg) (n : Height), Spec.HasPattern 0xD000 0xF000 (.drw x y n) ∧
    ∃ t, exec (.drw x y n) s = .next t ∧
      (∀ c r, t.pixel c r = (s.pixel c r ^^ Spec.spriteCovers s x y n c r)) ∧
      ((∃ c r, Spec.spriteCovers s x y n c r = true ∧ s.pixel c r = true) → t.readV vf = 1) ∧
      ((∀ c r, Spec.spriteCovers s x y n c r = true → s.pixel c r = false) → t.readV vf = 0) ∧
      (∀ r, r ≠ vf → t.readV r = s.readV r) ∧ t.redraw = true ∧
      t = { s with v := t.v, fb := t.fb, redraw := t.redraw }

/-- R239: drawing the same sprite at the same place again gives every pixel back, and `VF` is 1 after the second draw
exactly when some pixel of the sprite was off before the first. (R239 says 1 for every sprite with a set bit; by R236
that fails when every pixel of the sprite was on, and the model follows R236: log entry 19.) For `x = 15` or `y = 15`
the sprite is the one anchored at the old `VF`, the spec's decision D5 (R234; log entry 9). -/
def Obligations.DrawingTwiceRestoresPixels : Prop :=
  ∀ (s t t' : State) (x y : Reg) (n : Height), exec (.drw x y n) s = .next t → t'.fb = t.fb →
    t'.readV x = s.readV x → t'.readV y = s.readV y → t'.i = s.i → t'.mem = s.mem →
    ∃ u, exec (.drw x y n) t' = .next u ∧ (∀ c r, u.pixel c r = s.pixel c r) ∧
      (u.readV vf = 1 ↔ ∃ c r, Spec.spriteCovers s x y n c r = true ∧ s.pixel c r = false)

/-- R239: a draw on a cleared screen turns on the pixels of the sprite and no others, without a collision, and the
redraw flag is set. For `x = 15` or `y = 15` the sprite is the one anchored at the old `VF`, the spec's decision D5
(R234; log entry 9). -/
def Obligations.DrawOnClearedScreen : Prop :=
  ∀ (s t : State) (x y : Reg) (n : Height), exec .cls s = .next t →
    ∃ u, exec (.drw x y n) t = .next u ∧ u.redraw = true ∧ u.readV vf = 0 ∧
      ∀ c r, u.pixel c r = Spec.spriteCovers s x y n c r

/-! ## Timers and keys -/

/-- R250 to R252: the timer instructions. -/
def Obligations.TimerInstructions : Prop :=
  ∀ (s : State) (x : Reg),
    Spec.HasPattern 0xF007 0xF0FF (.ldVxDt x) ∧ Spec.HasPattern 0xF015 0xF0FF (.ldDtVx x) ∧
    Spec.HasPattern 0xF018 0xF0FF (.ldStVx x) ∧
    Spec.WritesRegister s (.ldVxDt x) x s.dt ∧
    exec (.ldDtVx x) s = .next { s with dt := s.readV x } ∧
    (∃ t, exec (.ldStVx x) s = .next t ∧ t = { s with st := s.readV x } ∧ (t.soundActive = true ↔ s.readV x ≠ 0))

/-- R253: the key wait takes the lowest pressed key; with no key pressed it only steps `pc` back by 2. -/
def Obligations.KeyWaitTakesLowestKey : Prop :=
  ∀ (s : State) (x : Reg), Spec.HasPattern 0xF00A 0xF0FF (.ldVxK x) ∧
    (∀ k : Reg, s.keys[k] = true → (∀ j : Reg, j < k → s.keys[j] = false) →
      Spec.WritesRegister s (.ldVxK x) x (BitVec.ofNat 8 k.val)) ∧
    ((∀ k : Reg, s.keys[k] = false) → exec (.ldVxK x) s = .next { s with pc := s.pc - 2 })

/-- R254, R255: however often the core steps while no key is pressed, a key wait at `pc` leaves the whole state as it
was. -/
def Obligations.KeyWaitStallsInPlace : Prop :=
  ∀ (s : State) (x : Reg) (n : Nat), s.fault = .noFault → s.fetchWord = encode (.ldVxK x) →
    (∀ k : Reg, s.keys[k] = false) → Sys2Proof.core.run n s = .next s

/-- R260, R262, R264: a timer step counts each timer down by its own rule, never below 0, and changes nothing else
(that it does so only while the core is not halted is the spec's decision D13; log entry 13). -/
def Obligations.TimerStepCountsDown : Prop :=
  ∀ s : State, s.fault = .noFault →
    ∃ t, Transaction.stepTimers.run s = .next t ∧ t.dt.toNat = s.dt.toNat - 1 ∧ t.st.toNat = s.st.toNat - 1 ∧
      t = { s with dt := t.dt, st := t.st }

/-- R263: `n` timer steps take a timer from `d` to `d - n`, so exactly `d` of them reach 0. -/
def Obligations.TimersReachZero : Prop :=
  ∀ (s : State) (n : Nat), s.fault = .noFault →
    ∃ t, runSchedule (List.replicate n .stepTimers) s = .next t ∧ t.dt.toNat = s.dt.toNat - n ∧
      t.st.toNat = s.st.toNat - n ∧ t = { s with dt := t.dt, st := t.st }

/-! ## Loading and the ports -/

/-- R304: `load_font` writes the 80 bytes from 0x050 on and nothing else. -/
def Obligations.FontIsLoaded : Prop :=
  ∀ (s : State) (table : Vector Byte 80),
    ∃ t, (Transaction.loadFont table).run s = .next t ∧
      (∀ k : Fin 80, t.memRead (BitVec.ofNat 16 (0x050 + k.val)) = table[k]) ∧
      (∀ a : Word, ¬ (0x050 ≤ a.toNat % 4096 ∧ a.toNat % 4096 ≤ 0x09F) → t.memRead a = s.memRead a) ∧
      t = { s with mem := t.mem }

/-- R307, R309: a program of at most 3584 bytes is copied from 0x200 on and nothing else changes; a longer one gives
RomTooLarge and nothing is written. -/
def Obligations.ProgramIsLoadedWhole : Prop :=
  ∀ (s : State) (bytes : List Byte),
    (bytes.length ≤ 3584 → loadStatus bytes = .ok ∧
      ∃ t, (Transaction.loadProgram bytes).run s = .next t ∧
        (∀ (k : Nat) (h : k < bytes.length), t.memRead (BitVec.ofNat 16 (0x200 + k)) = bytes[k]) ∧
        (∀ a : Word, ¬ (0x200 ≤ a.toNat % 4096 ∧ a.toNat % 4096 < 0x200 + bytes.length) → t.memRead a = s.memRead a) ∧
        t = { s with mem := t.mem }) ∧
    (3584 < bytes.length → loadStatus bytes = .romTooLarge ∧ (Transaction.loadProgram bytes).run s = .next s)

/-- R49, R52, R58, R240, R274: the ports of the host. The cause codes are the spec's decision D7 (log entry 13). -/
def Obligations.HostPorts : Prop :=
  ∀ (s : State) (ks : Vector Bool 16),
    Transaction.clearRedraw.run s = .next { s with redraw := false } ∧
    (Transaction.setKeys ks).run s = .next { s with keys := ks } ∧
    (s.soundActive = true ↔ s.st ≠ 0) ∧
    (∀ c r, s.pixelByte c r = if s.pixel c r = true then 0xFF else 0x00) ∧
    (s.fault = .noFault ↔ s.faultCode = 0) ∧ (s.fault = .stackUnderflow ↔ s.faultCode = 1) ∧
    (s.fault = .stackOverflow ↔ s.faultCode = 2)
end

