-- ==== Sys2Proof/Laws/Decode.lean ====
section
/-! SUPPORT. The fields of a word as numbers, and the fields of the words the encoder builds (spec/30_encoding.md
R101). -/

namespace Sys2Proof

/-! ## Fields as numbers -/

theorem fieldT_eq (w : Word) : fieldT w = w.toNat / 4096 := by
  simp [fieldT, BitVec.extractLsb, BitVec.extractLsb'_toNat, Nat.shiftRight_eq_div_pow]; omega

theorem fieldX_val (w : Word) : (fieldX w).val = w.toNat / 256 % 16 := by
  simp [fieldX, Nat.shiftRight_eq_div_pow]

theorem fieldY_val (w : Word) : (fieldY w).val = w.toNat / 16 % 16 := by
  simp [fieldY, Nat.shiftRight_eq_div_pow]

theorem fieldN_val (w : Word) : (fieldN w).val = w.toNat % 16 := by
  simp [fieldN]

theorem fieldNN_toNat (w : Word) : (fieldNN w).toNat = w.toNat % 256 := by
  simp [fieldNN]

theorem fieldNNN_toNat (w : Word) : (fieldNNN w).toNat = w.toNat % 4096 := by
  simp [fieldNNN]

/-! ## Words as numbers -/

theorem toNat_append_eq {a b : Nat} (u : BitVec a) (v : BitVec b) : (u ++ v).toNat = u.toNat * 2 ^ b + v.toNat := by
  rw [BitVec.toNat_append, ← Nat.shiftLeft_add_eq_or_of_lt v.isLt, Nat.shiftLeft_eq]

theorem toNat_nibble (r : Fin 16) : (nibble r).toNat = r.val := rfl

theorem toNat_wordNNN (t : BitVec 4) (nnn : Addr12) : (wordNNN t nnn).toNat = t.toNat * 4096 + nnn.toNat :=
  toNat_append_eq t nnn

theorem toNat_wordXNN (t : BitVec 4) (x : Reg) (nn : Byte) :
    (wordXNN t x nn).toNat = t.toNat * 4096 + x.val * 256 + nn.toNat := by
  refine (toNat_append_eq (t ++ nibble x) nn).trans ?_
  rw [toNat_append_eq, toNat_nibble]; omega

theorem toNat_wordXYN (t : BitVec 4) (x y : Reg) (n : BitVec 4) :
    (wordXYN t x y n).toNat = t.toNat * 4096 + x.val * 256 + y.val * 16 + n.toNat := by
  refine (toNat_append_eq (t ++ nibble x ++ nibble y) n).trans ?_
  rw [toNat_append_eq, toNat_append_eq, toNat_nibble, toNat_nibble]; omega

theorem toNat_concatBytes (hi lo : Byte) : (concatBytes hi lo).toNat = hi.toNat * 256 + lo.toNat :=
  toNat_append_eq hi lo

/-- A word is its high byte before its low byte (R76). -/
@[simp] theorem concatBytes_high_low (w : Word) : concatBytes (highByte w) (lowByte w) = w := by
  apply BitVec.eq_of_toNat_eq
  rw [toNat_concatBytes]
  simp [highByte, lowByte, Nat.shiftRight_eq_div_pow]
  omega

/-! ## The fields of an encoded word -/

@[simp] theorem fieldT_wordNNN (t : BitVec 4) (nnn : Addr12) : fieldT (wordNNN t nnn) = t.toNat := by
  rw [fieldT_eq, toNat_wordNNN]; have := nnn.isLt; omega

@[simp] theorem fieldNNN_wordNNN (t : BitVec 4) (nnn : Addr12) : fieldNNN (wordNNN t nnn) = nnn := by
  apply BitVec.eq_of_toNat_eq
  rw [fieldNNN_toNat, toNat_wordNNN]; have := nnn.isLt; omega

@[simp] theorem fieldT_wordXNN (t : BitVec 4) (x : Reg) (nn : Byte) : fieldT (wordXNN t x nn) = t.toNat := by
  rw [fieldT_eq, toNat_wordXNN]; have := nn.isLt; omega

@[simp] theorem fieldX_wordXNN (t : BitVec 4) (x : Reg) (nn : Byte) : fieldX (wordXNN t x nn) = x := by
  apply Fin.ext
  rw [fieldX_val, toNat_wordXNN]; have := nn.isLt; omega

@[simp] theorem fieldNN_wordXNN (t : BitVec 4) (x : Reg) (nn : Byte) : fieldNN (wordXNN t x nn) = nn := by
  apply BitVec.eq_of_toNat_eq
  rw [fieldNN_toNat, toNat_wordXNN]; have := nn.isLt; omega

@[simp] theorem fieldT_wordXYN (t : BitVec 4) (x y : Reg) (n : BitVec 4) : fieldT (wordXYN t x y n) = t.toNat := by
  rw [fieldT_eq, toNat_wordXYN]; have := n.isLt; omega

@[simp] theorem fieldX_wordXYN (t : BitVec 4) (x y : Reg) (n : BitVec 4) : fieldX (wordXYN t x y n) = x := by
  apply Fin.ext
  rw [fieldX_val, toNat_wordXYN]; have := n.isLt; omega

@[simp] theorem fieldY_wordXYN (t : BitVec 4) (x y : Reg) (n : BitVec 4) : fieldY (wordXYN t x y n) = y := by
  apply Fin.ext
  rw [fieldY_val, toNat_wordXYN]; have := n.isLt; omega

@[simp] theorem fieldN_wordXYN (t : BitVec 4) (x y : Reg) (n : BitVec 4) : fieldN (wordXYN t x y n) = n.toFin := by
  apply Fin.ext
  have hn : (n.toFin : Nat) = n.toNat := rfl
  rw [fieldN_val, toNat_wordXYN, hn]; have := n.isLt; omega

/-! ## The masks of the opcode map -/

theorem toNat_mask_F000 (w : Word) : (w &&& 0xF000#16).toNat = w.toNat / 4096 * 4096 := by
  have h : w &&& 0xF000#16 = (w >>> 12) <<< 12 := by
    apply BitVec.eq_of_getLsbD_eq; intro i hi; interval_cases i <;> simp
  rw [h]; simp [Nat.shiftRight_eq_div_pow, Nat.shiftLeft_eq]; omega

/-- A mask that keeps the top nibble and the low `k` bits. -/
theorem toNat_mask_low {w m : Word} {k : Nat} (hk : k ≤ 12)
    (h : w &&& m = ((w >>> 12) <<< 12) + (w &&& BitVec.ofNat 16 (2 ^ k - 1))) :
    (w &&& m).toNat = w.toNat / 4096 * 4096 + w.toNat % 2 ^ k := by
  have hpow : 2 ^ k ≤ 2 ^ 12 := Nat.pow_le_pow_right (by omega) hk
  have hlt : w.toNat % 2 ^ k < 2 ^ k := Nat.mod_lt _ (by positivity)
  have h16 : 2 ^ k - 1 < 65536 := by omega
  rw [h]
  simp [Nat.shiftRight_eq_div_pow, Nat.shiftLeft_eq, Nat.mod_eq_of_lt h16, Nat.and_two_pow_sub_one_eq_mod]
  omega

theorem toNat_mask_F00F (w : Word) : (w &&& 0xF00F#16).toNat = w.toNat / 4096 * 4096 + w.toNat % 16 := by
  refine toNat_mask_low (k := 4) (by omega) ?_
  rw [BitVec.add_eq_or_of_and_eq_zero] <;>
    (apply BitVec.eq_of_getLsbD_eq; intro i hi; interval_cases i <;> simp)

theorem toNat_mask_F0FF (w : Word) : (w &&& 0xF0FF#16).toNat = w.toNat / 4096 * 4096 + w.toNat % 256 := by
  refine toNat_mask_low (k := 8) (by omega) ?_
  rw [BitVec.add_eq_or_of_and_eq_zero] <;>
    (apply BitVec.eq_of_getLsbD_eq; intro i hi; interval_cases i <;> simp)

/-! ## An encoded word under the masks of the opcode map (R104) -/

theorem mask_wordNNN (t : BitVec 4) (nnn : Addr12) : (wordNNN t nnn &&& 0xF000#16).toNat = t.toNat * 4096 := by
  rw [toNat_mask_F000, toNat_wordNNN]; have := nnn.isLt; omega

theorem mask_wordXNN (t : BitVec 4) (x : Reg) (nn : Byte) : (wordXNN t x nn &&& 0xF000#16).toNat = t.toNat * 4096 := by
  rw [toNat_mask_F000, toNat_wordXNN]; have := nn.isLt; omega

theorem mask_wordXYN (t : BitVec 4) (x y : Reg) (n : BitVec 4) :
    (wordXYN t x y n &&& 0xF000#16).toNat = t.toNat * 4096 := by
  rw [toNat_mask_F000, toNat_wordXYN]; have := n.isLt; omega

/-- A row that fixes the low byte. -/
theorem mask_wordXNN_low (t : BitVec 4) (x : Reg) (nn : Byte) :
    (wordXNN t x nn &&& 0xF0FF#16).toNat = t.toNat * 4096 + nn.toNat := by
  rw [toNat_mask_F0FF, toNat_wordXNN]; have := nn.isLt; omega

/-- A row that fixes the low nibble. -/
theorem mask_wordXYN_low (t : BitVec 4) (x y : Reg) (n : BitVec 4) :
    (wordXYN t x y n &&& 0xF00F#16).toNat = t.toNat * 4096 + n.toNat := by
  rw [toNat_mask_F00F, toNat_wordXYN]; have := n.isLt; omega

/-! ## A word from its fields (R101) -/

theorem wordNNN_fields (w : Word) (t : BitVec 4) (h : fieldT w = t.toNat) : wordNNN t (fieldNNN w) = w := by
  apply BitVec.eq_of_toNat_eq
  rw [toNat_wordNNN, fieldNNN_toNat]; rw [fieldT_eq] at h; omega

theorem wordXNN_fields (w : Word) (t : BitVec 4) (nn : Byte) (h : fieldT w = t.toNat)
    (hnn : (fieldNN w).toNat = nn.toNat) : wordXNN t (fieldX w) nn = w := by
  apply BitVec.eq_of_toNat_eq
  rw [toNat_wordXNN, fieldX_val]; rw [fieldNN_toNat] at hnn; rw [fieldT_eq] at h; omega

theorem wordXYN_fields (w : Word) (t n : BitVec 4) (h : fieldT w = t.toNat) (hn : (fieldN w).val = n.toNat) :
    wordXYN t (fieldX w) (fieldY w) n = w := by
  apply BitVec.eq_of_toNat_eq
  rw [toNat_wordXYN, fieldX_val, fieldY_val]; rw [fieldN_val] at hn; rw [fieldT_eq] at h; omega

/-! ## The rows of the opcode map as numbers (R103, R104) -/

theorem selects_FFFF (p w : Word) : (OpcodeRow.mk p 0xFFFF).selects w = true ↔ w = p := by
  have h : w &&& 0xFFFF#16 = w := BitVec.and_allOnes
  simp [OpcodeRow.selects, h]

theorem selects_F000 (p w : Word) :
    (OpcodeRow.mk p 0xF000).selects w = true ↔ w.toNat / 4096 * 4096 = p.toNat := by
  simp only [OpcodeRow.selects, beq_iff_eq, ← BitVec.toNat_inj, ← toNat_mask_F000]; rfl

theorem selects_F00F (p w : Word) :
    (OpcodeRow.mk p 0xF00F).selects w = true ↔ w.toNat / 4096 * 4096 + w.toNat % 16 = p.toNat := by
  simp only [OpcodeRow.selects, beq_iff_eq, ← BitVec.toNat_inj, ← toNat_mask_F00F]; rfl

theorem selects_F0FF (p w : Word) :
    (OpcodeRow.mk p 0xF0FF).selects w = true ↔ w.toNat / 4096 * 4096 + w.toNat % 256 = p.toNat := by
  simp only [OpcodeRow.selects, beq_iff_eq, ← BitVec.toNat_inj, ← toNat_mask_F0FF]; rfl

end Sys2Proof
end

