-- ==== Sys2Proof/Laws/Memory.lean ====
section
/-! SUPPORT. The laws of memory: a read after a write gives what was written there and what was there elsewhere, and
every write keeps the canonical form. -/

namespace Sys2Proof.Machine

@[simp] theorem Memory.read_nil (a : Nat) : Memory.read [] a = Memory.unlisted := rfl

theorem Memory.read_erase (m : Memory) (a a' : Nat) :
    (m.erase a).read a' = if a' = a then Memory.unlisted else m.read a' := by
  induction m with
  | nil => simp [Memory.erase]
  | cons cell rest ih =>
    obtain ⟨k, b⟩ := cell
    by_cases hk : k = a
    · subst hk
      have he : Memory.erase ((k, b) :: rest) k = Memory.erase rest k := by simp [Memory.erase]
      rw [he, ih]
      by_cases h : a' = k
      · simp [h]
      · simp [Memory.read, h, Ne.symm h]
    · have he : Memory.erase ((k, b) :: rest) a = (k, b) :: Memory.erase rest a := by simp [Memory.erase, hk]
      rw [he]
      simp only [Memory.read, ih]
      split
      · next h => subst h; simp [hk]
      · rfl

theorem Memory.erase_absent (m : Memory) (a : Nat) : ∀ c ∈ m.erase a, c.1 ≠ a := by
  simp [Memory.erase]

theorem Memory.read_insert (m : Memory) (a : Nat) (b : Byte) (a' : Nat) (h : ∀ c ∈ m, c.1 ≠ a) :
    (m.insert a b).read a' = if a' = a then b else m.read a' := by
  induction m with
  | nil => simp only [Memory.insert, Memory.read, eq_comm (a := a)]
  | cons cell rest ih =>
    obtain ⟨k, c⟩ := cell
    have hk : k ≠ a := h (k, c) (by simp)
    have ih := ih (fun c hc => h c (by simp [hc]))
    simp only [Memory.insert]
    split
    · simp only [Memory.read, eq_comm (a := a)]
    · simp only [Memory.read, ih]
      split
      · next h => subst h; simp [hk]
      · rfl

/-- A read after a write. -/
theorem Memory.read_write (m : Memory) (a : Nat) (b : Byte) (a' : Nat) :
    (m.write a b).read a' = if a' = a then b else m.read a' := by
  unfold Memory.write
  split
  · next h => rw [Memory.read_erase, h]
  · rw [Memory.read_insert _ _ _ _ (m.erase_absent a), Memory.read_erase]
    split <;> rfl

theorem Memory.mem_insert (m : Memory) (a : Nat) (b : Byte) (c : Host.Cell) :
    c ∈ m.insert a b ↔ c = (a, b) ∨ c ∈ m := by
  induction m with
  | nil => simp [Memory.insert]
  | cons cell rest ih =>
    obtain ⟨k, d⟩ := cell
    simp only [Memory.insert]
    split
    · simp
    · simp only [List.mem_cons, ih]; tauto

theorem Memory.erase_wf {m : Memory} (h : m.wf) (a : Nat) : (m.erase a).wf :=
  ⟨h.1.filter _, fun c hc => h.2 c (List.mem_filter.mp hc).1⟩

theorem Memory.insert_pairwise {m : Memory} (a : Nat) (b : Byte) (h : m.Pairwise (fun c d => c.1 < d.1))
    (ha : ∀ c ∈ m, c.1 ≠ a) : (m.insert a b).Pairwise (fun c d => c.1 < d.1) := by
  induction m with
  | nil => simp [Memory.insert]
  | cons cell rest ih =>
    obtain ⟨k, d⟩ := cell
    obtain ⟨hlt, hrest⟩ := List.pairwise_cons.mp h
    have hk : k ≠ a := ha (k, d) (by simp)
    simp only [Memory.insert]
    split
    · next hak =>
      refine List.pairwise_cons.mpr ⟨fun c hc => ?_, h⟩
      rcases List.mem_cons.mp hc with rfl | hc
      · exact hak
      · exact Nat.lt_trans hak (hlt c hc)
    · next hak =>
      refine List.pairwise_cons.mpr ⟨fun c hc => ?_, ih hrest (fun c hc => ha c (by simp [hc]))⟩
      rcases (Memory.mem_insert _ _ _ _).mp hc with rfl | hc
      · show k < a; omega
      · exact hlt c hc

/-- A write inside memory keeps the canonical form. -/
theorem Memory.write_wf {m : Memory} (h : m.wf) {a : Nat} (ha : a < Config.memSize) (b : Byte) : (m.write a b).wf := by
  have he := Memory.erase_wf h a
  unfold Memory.write
  split
  · exact he
  · next hb =>
    refine ⟨Memory.insert_pairwise a b he.1 (m.erase_absent a), fun c hc => ?_⟩
    rcases (Memory.mem_insert _ _ _ _).mp hc with rfl | hc
    · exact ⟨ha, hb⟩
    · exact he.2 c hc

/-- Memory with nothing listed is in its canonical form. -/
theorem Memory.wf_nil : Memory.wf [] := by simp [Memory.wf]

theorem physical_lt (a : Word) : physical a < Config.memSize := Nat.mod_lt _ (by decide)

/-- `MemRead` after `MemWrite` (R11). -/
@[simp] theorem State.memWrite_memRead (s : State) (a : Word) (b : Byte) (a' : Word) :
    (s.memWrite a b).memRead a' = if physical a' = physical a then b else s.memRead a' :=
  Memory.read_write _ _ _ _

/-- `MemWrite` keeps the canonical form. -/
theorem State.memWrite_wf {s : State} (h : Memory.wf s.mem) (a : Word) (b : Byte) : Memory.wf (s.memWrite a b).mem :=
  Memory.write_wf h (physical_lt a) b

end Sys2Proof.Machine
end

