-- ==== Sys2Proof/Laws/State.lean ====
section
/-! SUPPORT. What each update of the state does to each field, and to a register, a byte of memory and a pixel read
through the accessors: one lemma per field and update, so that no later proof unfolds a record update. -/

namespace Sys2Proof.Machine

variable (s : State)

/-! ### The store to memory (R11) -/

@[simp] theorem State.memWrite_v (a : Word) (b : Byte) : (s.memWrite a b).v = s.v := rfl
@[simp] theorem State.memWrite_readV (a : Word) (b : Byte) (q : Reg) : (s.memWrite a b).readV q = s.readV q := rfl
@[simp] theorem State.memWrite_pc (a : Word) (b : Byte) : (s.memWrite a b).pc = s.pc := rfl
@[simp] theorem State.memWrite_i (a : Word) (b : Byte) : (s.memWrite a b).i = s.i := rfl
@[simp] theorem State.memWrite_stack (a : Word) (b : Byte) : (s.memWrite a b).stack = s.stack := rfl
@[simp] theorem State.memWrite_dt (a : Word) (b : Byte) : (s.memWrite a b).dt = s.dt := rfl
@[simp] theorem State.memWrite_st (a : Word) (b : Byte) : (s.memWrite a b).st = s.st := rfl
@[simp] theorem State.memWrite_fb (a : Word) (b : Byte) : (s.memWrite a b).fb = s.fb := rfl
@[simp] theorem State.memWrite_pixel (a : Word) (b : Byte) (q : Col) (q' : Row) : (s.memWrite a b).pixel q q' = s.pixel q q' := rfl
@[simp] theorem State.memWrite_redraw (a : Word) (b : Byte) : (s.memWrite a b).redraw = s.redraw := rfl
@[simp] theorem State.memWrite_keys (a : Word) (b : Byte) : (s.memWrite a b).keys = s.keys := rfl
@[simp] theorem State.memWrite_fault (a : Word) (b : Byte) : (s.memWrite a b).fault = s.fault := rfl
@[simp] theorem State.memWrite_stackDepth (a : Word) (b : Byte) : (s.memWrite a b).stackDepth = s.stackDepth := rfl
@[simp] theorem State.memWrite_draws (a : Word) (b : Byte) : (s.memWrite a b).draws = s.draws := rfl

/-! ### The write of a general register (R30) -/

@[simp] theorem State.writeV_pc (r : Reg) (b : Byte) : (s.writeV r b).pc = s.pc := rfl
@[simp] theorem State.writeV_i (r : Reg) (b : Byte) : (s.writeV r b).i = s.i := rfl
@[simp] theorem State.writeV_stack (r : Reg) (b : Byte) : (s.writeV r b).stack = s.stack := rfl
@[simp] theorem State.writeV_dt (r : Reg) (b : Byte) : (s.writeV r b).dt = s.dt := rfl
@[simp] theorem State.writeV_st (r : Reg) (b : Byte) : (s.writeV r b).st = s.st := rfl
@[simp] theorem State.writeV_fb (r : Reg) (b : Byte) : (s.writeV r b).fb = s.fb := rfl
@[simp] theorem State.writeV_pixel (r : Reg) (b : Byte) (q : Col) (q' : Row) : (s.writeV r b).pixel q q' = s.pixel q q' := rfl
@[simp] theorem State.writeV_redraw (r : Reg) (b : Byte) : (s.writeV r b).redraw = s.redraw := rfl
@[simp] theorem State.writeV_keys (r : Reg) (b : Byte) : (s.writeV r b).keys = s.keys := rfl
@[simp] theorem State.writeV_mem (r : Reg) (b : Byte) : (s.writeV r b).mem = s.mem := rfl
@[simp] theorem State.writeV_memRead (r : Reg) (b : Byte) (q : Word) : (s.writeV r b).memRead q = s.memRead q := rfl
@[simp] theorem State.writeV_fault (r : Reg) (b : Byte) : (s.writeV r b).fault = s.fault := rfl
@[simp] theorem State.writeV_stackDepth (r : Reg) (b : Byte) : (s.writeV r b).stackDepth = s.stackDepth := rfl
@[simp] theorem State.writeV_draws (r : Reg) (b : Byte) : (s.writeV r b).draws = s.draws := rfl

/-! ### The write of the index register (R39) -/

@[simp] theorem State.setI_v (a : Word) : (s.setI a).v = s.v := rfl
@[simp] theorem State.setI_readV (a : Word) (q : Reg) : (s.setI a).readV q = s.readV q := rfl
@[simp] theorem State.setI_pc (a : Word) : (s.setI a).pc = s.pc := rfl
@[simp] theorem State.setI_i (a : Word) : (s.setI a).i = a := rfl
@[simp] theorem State.setI_stack (a : Word) : (s.setI a).stack = s.stack := rfl
@[simp] theorem State.setI_dt (a : Word) : (s.setI a).dt = s.dt := rfl
@[simp] theorem State.setI_st (a : Word) : (s.setI a).st = s.st := rfl
@[simp] theorem State.setI_fb (a : Word) : (s.setI a).fb = s.fb := rfl
@[simp] theorem State.setI_pixel (a : Word) (q : Col) (q' : Row) : (s.setI a).pixel q q' = s.pixel q q' := rfl
@[simp] theorem State.setI_redraw (a : Word) : (s.setI a).redraw = s.redraw := rfl
@[simp] theorem State.setI_keys (a : Word) : (s.setI a).keys = s.keys := rfl
@[simp] theorem State.setI_mem (a : Word) : (s.setI a).mem = s.mem := rfl
@[simp] theorem State.setI_memRead (a : Word) (q : Word) : (s.setI a).memRead q = s.memRead q := rfl
@[simp] theorem State.setI_fault (a : Word) : (s.setI a).fault = s.fault := rfl
@[simp] theorem State.setI_stackDepth (a : Word) : (s.setI a).stackDepth = s.stackDepth := rfl
@[simp] theorem State.setI_draws (a : Word) : (s.setI a).draws = s.draws := rfl

/-! ### The write of the delay timer (R42) -/

@[simp] theorem State.setDT_v (b : Byte) : (s.setDT b).v = s.v := rfl
@[simp] theorem State.setDT_readV (b : Byte) (q : Reg) : (s.setDT b).readV q = s.readV q := rfl
@[simp] theorem State.setDT_pc (b : Byte) : (s.setDT b).pc = s.pc := rfl
@[simp] theorem State.setDT_i (b : Byte) : (s.setDT b).i = s.i := rfl
@[simp] theorem State.setDT_stack (b : Byte) : (s.setDT b).stack = s.stack := rfl
@[simp] theorem State.setDT_dt (b : Byte) : (s.setDT b).dt = b := rfl
@[simp] theorem State.setDT_st (b : Byte) : (s.setDT b).st = s.st := rfl
@[simp] theorem State.setDT_fb (b : Byte) : (s.setDT b).fb = s.fb := rfl
@[simp] theorem State.setDT_pixel (b : Byte) (q : Col) (q' : Row) : (s.setDT b).pixel q q' = s.pixel q q' := rfl
@[simp] theorem State.setDT_redraw (b : Byte) : (s.setDT b).redraw = s.redraw := rfl
@[simp] theorem State.setDT_keys (b : Byte) : (s.setDT b).keys = s.keys := rfl
@[simp] theorem State.setDT_mem (b : Byte) : (s.setDT b).mem = s.mem := rfl
@[simp] theorem State.setDT_memRead (b : Byte) (q : Word) : (s.setDT b).memRead q = s.memRead q := rfl
@[simp] theorem State.setDT_fault (b : Byte) : (s.setDT b).fault = s.fault := rfl
@[simp] theorem State.setDT_stackDepth (b : Byte) : (s.setDT b).stackDepth = s.stackDepth := rfl
@[simp] theorem State.setDT_draws (b : Byte) : (s.setDT b).draws = s.draws := rfl

/-! ### The write of the sound timer (R43) -/

@[simp] theorem State.setST_v (b : Byte) : (s.setST b).v = s.v := rfl
@[simp] theorem State.setST_readV (b : Byte) (q : Reg) : (s.setST b).readV q = s.readV q := rfl
@[simp] theorem State.setST_pc (b : Byte) : (s.setST b).pc = s.pc := rfl
@[simp] theorem State.setST_i (b : Byte) : (s.setST b).i = s.i := rfl
@[simp] theorem State.setST_stack (b : Byte) : (s.setST b).stack = s.stack := rfl
@[simp] theorem State.setST_dt (b : Byte) : (s.setST b).dt = s.dt := rfl
@[simp] theorem State.setST_st (b : Byte) : (s.setST b).st = b := rfl
@[simp] theorem State.setST_fb (b : Byte) : (s.setST b).fb = s.fb := rfl
@[simp] theorem State.setST_pixel (b : Byte) (q : Col) (q' : Row) : (s.setST b).pixel q q' = s.pixel q q' := rfl
@[simp] theorem State.setST_redraw (b : Byte) : (s.setST b).redraw = s.redraw := rfl
@[simp] theorem State.setST_keys (b : Byte) : (s.setST b).keys = s.keys := rfl
@[simp] theorem State.setST_mem (b : Byte) : (s.setST b).mem = s.mem := rfl
@[simp] theorem State.setST_memRead (b : Byte) (q : Word) : (s.setST b).memRead q = s.memRead q := rfl
@[simp] theorem State.setST_fault (b : Byte) : (s.setST b).fault = s.fault := rfl
@[simp] theorem State.setST_stackDepth (b : Byte) : (s.setST b).stackDepth = s.stackDepth := rfl
@[simp] theorem State.setST_draws (b : Byte) : (s.setST b).draws = s.draws := rfl

/-! ### The write of the program counter (R36) -/

@[simp] theorem State.setPc_v (a : Word) : (s.setPc a).v = s.v := rfl
@[simp] theorem State.setPc_readV (a : Word) (q : Reg) : (s.setPc a).readV q = s.readV q := rfl
@[simp] theorem State.setPc_pc (a : Word) : (s.setPc a).pc = a := rfl
@[simp] theorem State.setPc_i (a : Word) : (s.setPc a).i = s.i := rfl
@[simp] theorem State.setPc_stack (a : Word) : (s.setPc a).stack = s.stack := rfl
@[simp] theorem State.setPc_dt (a : Word) : (s.setPc a).dt = s.dt := rfl
@[simp] theorem State.setPc_st (a : Word) : (s.setPc a).st = s.st := rfl
@[simp] theorem State.setPc_fb (a : Word) : (s.setPc a).fb = s.fb := rfl
@[simp] theorem State.setPc_pixel (a : Word) (q : Col) (q' : Row) : (s.setPc a).pixel q q' = s.pixel q q' := rfl
@[simp] theorem State.setPc_redraw (a : Word) : (s.setPc a).redraw = s.redraw := rfl
@[simp] theorem State.setPc_keys (a : Word) : (s.setPc a).keys = s.keys := rfl
@[simp] theorem State.setPc_mem (a : Word) : (s.setPc a).mem = s.mem := rfl
@[simp] theorem State.setPc_memRead (a : Word) (q : Word) : (s.setPc a).memRead q = s.memRead q := rfl
@[simp] theorem State.setPc_fault (a : Word) : (s.setPc a).fault = s.fault := rfl
@[simp] theorem State.setPc_stackDepth (a : Word) : (s.setPc a).stackDepth = s.stackDepth := rfl
@[simp] theorem State.setPc_draws (a : Word) : (s.setPc a).draws = s.draws := rfl

/-! ### The pre-increment (R132) -/

@[simp] theorem State.advancePc_v : (s.advancePc).v = s.v := rfl
@[simp] theorem State.advancePc_readV (q : Reg) : (s.advancePc).readV q = s.readV q := rfl
@[simp] theorem State.advancePc_pc : (s.advancePc).pc = s.pc + 2 := rfl
@[simp] theorem State.advancePc_i : (s.advancePc).i = s.i := rfl
@[simp] theorem State.advancePc_stack : (s.advancePc).stack = s.stack := rfl
@[simp] theorem State.advancePc_dt : (s.advancePc).dt = s.dt := rfl
@[simp] theorem State.advancePc_st : (s.advancePc).st = s.st := rfl
@[simp] theorem State.advancePc_fb : (s.advancePc).fb = s.fb := rfl
@[simp] theorem State.advancePc_pixel (q : Col) (q' : Row) : (s.advancePc).pixel q q' = s.pixel q q' := rfl
@[simp] theorem State.advancePc_redraw : (s.advancePc).redraw = s.redraw := rfl
@[simp] theorem State.advancePc_keys : (s.advancePc).keys = s.keys := rfl
@[simp] theorem State.advancePc_mem : (s.advancePc).mem = s.mem := rfl
@[simp] theorem State.advancePc_memRead (q : Word) : (s.advancePc).memRead q = s.memRead q := rfl
@[simp] theorem State.advancePc_fault : (s.advancePc).fault = s.fault := rfl
@[simp] theorem State.advancePc_stackDepth : (s.advancePc).stackDepth = s.stackDepth := rfl
@[simp] theorem State.advancePc_draws : (s.advancePc).draws = s.draws := rfl

/-! ### The skip (R160) -/

@[simp] theorem State.skipIf_v (c : Bool) : (s.skipIf c).v = s.v := by cases c <;> rfl
@[simp] theorem State.skipIf_readV (c : Bool) (q : Reg) : (s.skipIf c).readV q = s.readV q := by cases c <;> rfl
@[simp] theorem State.skipIf_pc (c : Bool) : (s.skipIf c).pc = if c then s.pc + 2 else s.pc := by cases c <;> rfl
@[simp] theorem State.skipIf_i (c : Bool) : (s.skipIf c).i = s.i := by cases c <;> rfl
@[simp] theorem State.skipIf_stack (c : Bool) : (s.skipIf c).stack = s.stack := by cases c <;> rfl
@[simp] theorem State.skipIf_dt (c : Bool) : (s.skipIf c).dt = s.dt := by cases c <;> rfl
@[simp] theorem State.skipIf_st (c : Bool) : (s.skipIf c).st = s.st := by cases c <;> rfl
@[simp] theorem State.skipIf_fb (c : Bool) : (s.skipIf c).fb = s.fb := by cases c <;> rfl
@[simp] theorem State.skipIf_pixel (c : Bool) (q : Col) (q' : Row) : (s.skipIf c).pixel q q' = s.pixel q q' := by cases c <;> rfl
@[simp] theorem State.skipIf_redraw (c : Bool) : (s.skipIf c).redraw = s.redraw := by cases c <;> rfl
@[simp] theorem State.skipIf_keys (c : Bool) : (s.skipIf c).keys = s.keys := by cases c <;> rfl
@[simp] theorem State.skipIf_mem (c : Bool) : (s.skipIf c).mem = s.mem := by cases c <;> rfl
@[simp] theorem State.skipIf_memRead (c : Bool) (q : Word) : (s.skipIf c).memRead q = s.memRead q := by cases c <;> rfl
@[simp] theorem State.skipIf_fault (c : Bool) : (s.skipIf c).fault = s.fault := by cases c <;> rfl
@[simp] theorem State.skipIf_stackDepth (c : Bool) : (s.skipIf c).stackDepth = s.stackDepth := by cases c <;> rfl
@[simp] theorem State.skipIf_draws (c : Bool) : (s.skipIf c).draws = s.draws := by cases c <;> rfl

/-! ### The step back of the key wait (R253) -/

@[simp] theorem State.retreatPc_v : (s.retreatPc).v = s.v := rfl
@[simp] theorem State.retreatPc_readV (q : Reg) : (s.retreatPc).readV q = s.readV q := rfl
@[simp] theorem State.retreatPc_pc : (s.retreatPc).pc = s.pc - 2 := rfl
@[simp] theorem State.retreatPc_i : (s.retreatPc).i = s.i := rfl
@[simp] theorem State.retreatPc_stack : (s.retreatPc).stack = s.stack := rfl
@[simp] theorem State.retreatPc_dt : (s.retreatPc).dt = s.dt := rfl
@[simp] theorem State.retreatPc_st : (s.retreatPc).st = s.st := rfl
@[simp] theorem State.retreatPc_fb : (s.retreatPc).fb = s.fb := rfl
@[simp] theorem State.retreatPc_pixel (q : Col) (q' : Row) : (s.retreatPc).pixel q q' = s.pixel q q' := rfl
@[simp] theorem State.retreatPc_redraw : (s.retreatPc).redraw = s.redraw := rfl
@[simp] theorem State.retreatPc_keys : (s.retreatPc).keys = s.keys := rfl
@[simp] theorem State.retreatPc_mem : (s.retreatPc).mem = s.mem := rfl
@[simp] theorem State.retreatPc_memRead (q : Word) : (s.retreatPc).memRead q = s.memRead q := rfl
@[simp] theorem State.retreatPc_fault : (s.retreatPc).fault = s.fault := rfl
@[simp] theorem State.retreatPc_stackDepth : (s.retreatPc).stackDepth = s.stackDepth := rfl
@[simp] theorem State.retreatPc_draws : (s.retreatPc).draws = s.draws := rfl

/-! ### The push (R40) -/

@[simp] theorem State.push_v (a : Word) : (s.push a).v = s.v := rfl
@[simp] theorem State.push_readV (a : Word) (q : Reg) : (s.push a).readV q = s.readV q := rfl
@[simp] theorem State.push_pc (a : Word) : (s.push a).pc = s.pc := rfl
@[simp] theorem State.push_i (a : Word) : (s.push a).i = s.i := rfl
@[simp] theorem State.push_stack (a : Word) : (s.push a).stack = a :: s.stack := rfl
@[simp] theorem State.push_dt (a : Word) : (s.push a).dt = s.dt := rfl
@[simp] theorem State.push_st (a : Word) : (s.push a).st = s.st := rfl
@[simp] theorem State.push_fb (a : Word) : (s.push a).fb = s.fb := rfl
@[simp] theorem State.push_pixel (a : Word) (q : Col) (q' : Row) : (s.push a).pixel q q' = s.pixel q q' := rfl
@[simp] theorem State.push_redraw (a : Word) : (s.push a).redraw = s.redraw := rfl
@[simp] theorem State.push_keys (a : Word) : (s.push a).keys = s.keys := rfl
@[simp] theorem State.push_mem (a : Word) : (s.push a).mem = s.mem := rfl
@[simp] theorem State.push_memRead (a : Word) (q : Word) : (s.push a).memRead q = s.memRead q := rfl
@[simp] theorem State.push_fault (a : Word) : (s.push a).fault = s.fault := rfl
@[simp] theorem State.push_stackDepth (a : Word) : (s.push a).stackDepth = s.stackDepth := rfl
@[simp] theorem State.push_draws (a : Word) : (s.push a).draws = s.draws := rfl

/-! ### The write of a pixel (R45) -/

@[simp] theorem State.setPixel_v (c : Col) (r : Row) (on : Bool) : (s.setPixel c r on).v = s.v := rfl
@[simp] theorem State.setPixel_readV (c : Col) (r : Row) (on : Bool) (q : Reg) : (s.setPixel c r on).readV q = s.readV q := rfl
@[simp] theorem State.setPixel_pc (c : Col) (r : Row) (on : Bool) : (s.setPixel c r on).pc = s.pc := rfl
@[simp] theorem State.setPixel_i (c : Col) (r : Row) (on : Bool) : (s.setPixel c r on).i = s.i := rfl
@[simp] theorem State.setPixel_stack (c : Col) (r : Row) (on : Bool) : (s.setPixel c r on).stack = s.stack := rfl
@[simp] theorem State.setPixel_dt (c : Col) (r : Row) (on : Bool) : (s.setPixel c r on).dt = s.dt := rfl
@[simp] theorem State.setPixel_st (c : Col) (r : Row) (on : Bool) : (s.setPixel c r on).st = s.st := rfl
@[simp] theorem State.setPixel_redraw (c : Col) (r : Row) (on : Bool) : (s.setPixel c r on).redraw = s.redraw := rfl
@[simp] theorem State.setPixel_keys (c : Col) (r : Row) (on : Bool) : (s.setPixel c r on).keys = s.keys := rfl
@[simp] theorem State.setPixel_mem (c : Col) (r : Row) (on : Bool) : (s.setPixel c r on).mem = s.mem := rfl
@[simp] theorem State.setPixel_memRead (c : Col) (r : Row) (on : Bool) (q : Word) : (s.setPixel c r on).memRead q = s.memRead q := rfl
@[simp] theorem State.setPixel_fault (c : Col) (r : Row) (on : Bool) : (s.setPixel c r on).fault = s.fault := rfl
@[simp] theorem State.setPixel_stackDepth (c : Col) (r : Row) (on : Bool) : (s.setPixel c r on).stackDepth = s.stackDepth := rfl
@[simp] theorem State.setPixel_draws (c : Col) (r : Row) (on : Bool) : (s.setPixel c r on).draws = s.draws := rfl

/-! ### The clear of the framebuffer (R230) -/

@[simp] theorem State.clearPixels_v : (s.clearPixels).v = s.v := rfl
@[simp] theorem State.clearPixels_readV (q : Reg) : (s.clearPixels).readV q = s.readV q := rfl
@[simp] theorem State.clearPixels_pc : (s.clearPixels).pc = s.pc := rfl
@[simp] theorem State.clearPixels_i : (s.clearPixels).i = s.i := rfl
@[simp] theorem State.clearPixels_stack : (s.clearPixels).stack = s.stack := rfl
@[simp] theorem State.clearPixels_dt : (s.clearPixels).dt = s.dt := rfl
@[simp] theorem State.clearPixels_st : (s.clearPixels).st = s.st := rfl
@[simp] theorem State.clearPixels_fb : (s.clearPixels).fb = Framebuffer.off := rfl
@[simp] theorem State.clearPixels_redraw : (s.clearPixels).redraw = s.redraw := rfl
@[simp] theorem State.clearPixels_keys : (s.clearPixels).keys = s.keys := rfl
@[simp] theorem State.clearPixels_mem : (s.clearPixels).mem = s.mem := rfl
@[simp] theorem State.clearPixels_memRead (q : Word) : (s.clearPixels).memRead q = s.memRead q := rfl
@[simp] theorem State.clearPixels_fault : (s.clearPixels).fault = s.fault := rfl
@[simp] theorem State.clearPixels_stackDepth : (s.clearPixels).stackDepth = s.stackDepth := rfl
@[simp] theorem State.clearPixels_draws : (s.clearPixels).draws = s.draws := rfl

/-! ### The set of the redraw flag (R47) -/

@[simp] theorem State.setRedraw_v : (s.setRedraw).v = s.v := rfl
@[simp] theorem State.setRedraw_readV (q : Reg) : (s.setRedraw).readV q = s.readV q := rfl
@[simp] theorem State.setRedraw_pc : (s.setRedraw).pc = s.pc := rfl
@[simp] theorem State.setRedraw_i : (s.setRedraw).i = s.i := rfl
@[simp] theorem State.setRedraw_stack : (s.setRedraw).stack = s.stack := rfl
@[simp] theorem State.setRedraw_dt : (s.setRedraw).dt = s.dt := rfl
@[simp] theorem State.setRedraw_st : (s.setRedraw).st = s.st := rfl
@[simp] theorem State.setRedraw_fb : (s.setRedraw).fb = s.fb := rfl
@[simp] theorem State.setRedraw_pixel (q : Col) (q' : Row) : (s.setRedraw).pixel q q' = s.pixel q q' := rfl
@[simp] theorem State.setRedraw_redraw : (s.setRedraw).redraw = true := rfl
@[simp] theorem State.setRedraw_keys : (s.setRedraw).keys = s.keys := rfl
@[simp] theorem State.setRedraw_mem : (s.setRedraw).mem = s.mem := rfl
@[simp] theorem State.setRedraw_memRead (q : Word) : (s.setRedraw).memRead q = s.memRead q := rfl
@[simp] theorem State.setRedraw_fault : (s.setRedraw).fault = s.fault := rfl
@[simp] theorem State.setRedraw_stackDepth : (s.setRedraw).stackDepth = s.stackDepth := rfl
@[simp] theorem State.setRedraw_draws : (s.setRedraw).draws = s.draws := rfl

/-! ### The draw (R13) -/

@[simp] theorem State.takeDraw_v : (s.takeDraw).v = s.v := rfl
@[simp] theorem State.takeDraw_readV (q : Reg) : (s.takeDraw).readV q = s.readV q := rfl
@[simp] theorem State.takeDraw_pc : (s.takeDraw).pc = s.pc := rfl
@[simp] theorem State.takeDraw_i : (s.takeDraw).i = s.i := rfl
@[simp] theorem State.takeDraw_stack : (s.takeDraw).stack = s.stack := rfl
@[simp] theorem State.takeDraw_dt : (s.takeDraw).dt = s.dt := rfl
@[simp] theorem State.takeDraw_st : (s.takeDraw).st = s.st := rfl
@[simp] theorem State.takeDraw_fb : (s.takeDraw).fb = s.fb := rfl
@[simp] theorem State.takeDraw_pixel (q : Col) (q' : Row) : (s.takeDraw).pixel q q' = s.pixel q q' := rfl
@[simp] theorem State.takeDraw_redraw : (s.takeDraw).redraw = s.redraw := rfl
@[simp] theorem State.takeDraw_keys : (s.takeDraw).keys = s.keys := rfl
@[simp] theorem State.takeDraw_mem : (s.takeDraw).mem = s.mem := rfl
@[simp] theorem State.takeDraw_memRead (q : Word) : (s.takeDraw).memRead q = s.memRead q := rfl
@[simp] theorem State.takeDraw_fault : (s.takeDraw).fault = s.fault := rfl
@[simp] theorem State.takeDraw_stackDepth : (s.takeDraw).stackDepth = s.stackDepth := rfl
@[simp] theorem State.takeDraw_draws : (s.takeDraw).draws = s.draws + 1 := rfl

/-! ### The draw of a key test (R163) -/

@[simp] theorem State.takeKeyDraw_v (k : Byte) : (s.takeKeyDraw k).v = s.v := by unfold State.takeKeyDraw; split <;> rfl
@[simp] theorem State.takeKeyDraw_readV (k : Byte) (q : Reg) : (s.takeKeyDraw k).readV q = s.readV q := by unfold State.takeKeyDraw; split <;> rfl
@[simp] theorem State.takeKeyDraw_pc (k : Byte) : (s.takeKeyDraw k).pc = s.pc := by unfold State.takeKeyDraw; split <;> rfl
@[simp] theorem State.takeKeyDraw_i (k : Byte) : (s.takeKeyDraw k).i = s.i := by unfold State.takeKeyDraw; split <;> rfl
@[simp] theorem State.takeKeyDraw_stack (k : Byte) : (s.takeKeyDraw k).stack = s.stack := by unfold State.takeKeyDraw; split <;> rfl
@[simp] theorem State.takeKeyDraw_dt (k : Byte) : (s.takeKeyDraw k).dt = s.dt := by unfold State.takeKeyDraw; split <;> rfl
@[simp] theorem State.takeKeyDraw_st (k : Byte) : (s.takeKeyDraw k).st = s.st := by unfold State.takeKeyDraw; split <;> rfl
@[simp] theorem State.takeKeyDraw_fb (k : Byte) : (s.takeKeyDraw k).fb = s.fb := by unfold State.takeKeyDraw; split <;> rfl
@[simp] theorem State.takeKeyDraw_pixel (k : Byte) (q : Col) (q' : Row) : (s.takeKeyDraw k).pixel q q' = s.pixel q q' := by unfold State.takeKeyDraw; split <;> rfl
@[simp] theorem State.takeKeyDraw_redraw (k : Byte) : (s.takeKeyDraw k).redraw = s.redraw := by unfold State.takeKeyDraw; split <;> rfl
@[simp] theorem State.takeKeyDraw_keys (k : Byte) : (s.takeKeyDraw k).keys = s.keys := by unfold State.takeKeyDraw; split <;> rfl
@[simp] theorem State.takeKeyDraw_mem (k : Byte) : (s.takeKeyDraw k).mem = s.mem := by unfold State.takeKeyDraw; split <;> rfl
@[simp] theorem State.takeKeyDraw_memRead (k : Byte) (q : Word) : (s.takeKeyDraw k).memRead q = s.memRead q := by unfold State.takeKeyDraw; split <;> rfl
@[simp] theorem State.takeKeyDraw_fault (k : Byte) : (s.takeKeyDraw k).fault = s.fault := by unfold State.takeKeyDraw; split <;> rfl
@[simp] theorem State.takeKeyDraw_stackDepth (k : Byte) : (s.takeKeyDraw k).stackDepth = s.stackDepth := by unfold State.takeKeyDraw; split <;> rfl
@[simp] theorem State.takeKeyDraw_draws (k : Byte) : (s.takeKeyDraw k).draws = if namesKey k then s.draws else s.draws + 1 := by unfold State.takeKeyDraw; split <;> rfl

/-! ### The plot of a pixel (R236) -/

@[simp] theorem State.plot_pc (p : Col × Row) : (s.plot p).pc = s.pc := by unfold State.plot; split <;> rfl
@[simp] theorem State.plot_i (p : Col × Row) : (s.plot p).i = s.i := by unfold State.plot; split <;> rfl
@[simp] theorem State.plot_stack (p : Col × Row) : (s.plot p).stack = s.stack := by unfold State.plot; split <;> rfl
@[simp] theorem State.plot_dt (p : Col × Row) : (s.plot p).dt = s.dt := by unfold State.plot; split <;> rfl
@[simp] theorem State.plot_st (p : Col × Row) : (s.plot p).st = s.st := by unfold State.plot; split <;> rfl
@[simp] theorem State.plot_redraw (p : Col × Row) : (s.plot p).redraw = s.redraw := by unfold State.plot; split <;> rfl
@[simp] theorem State.plot_keys (p : Col × Row) : (s.plot p).keys = s.keys := by unfold State.plot; split <;> rfl
@[simp] theorem State.plot_mem (p : Col × Row) : (s.plot p).mem = s.mem := by unfold State.plot; split <;> rfl
@[simp] theorem State.plot_memRead (p : Col × Row) (q : Word) : (s.plot p).memRead q = s.memRead q := by unfold State.plot; split <;> rfl
@[simp] theorem State.plot_fault (p : Col × Row) : (s.plot p).fault = s.fault := by unfold State.plot; split <;> rfl
@[simp] theorem State.plot_stackDepth (p : Col × Row) : (s.plot p).stackDepth = s.stackDepth := by unfold State.plot; split <;> rfl
@[simp] theorem State.plot_draws (p : Col × Row) : (s.plot p).draws = s.draws := by unfold State.plot; split <;> rfl

/-! ### The load of the random byte (R197) -/

@[simp] theorem State.loadRandom_pc (r : Reg) (b d : Byte) : (s.loadRandom r b d).pc = s.pc := rfl
@[simp] theorem State.loadRandom_i (r : Reg) (b d : Byte) : (s.loadRandom r b d).i = s.i := rfl
@[simp] theorem State.loadRandom_stack (r : Reg) (b d : Byte) : (s.loadRandom r b d).stack = s.stack := rfl
@[simp] theorem State.loadRandom_dt (r : Reg) (b d : Byte) : (s.loadRandom r b d).dt = s.dt := rfl
@[simp] theorem State.loadRandom_st (r : Reg) (b d : Byte) : (s.loadRandom r b d).st = s.st := rfl
@[simp] theorem State.loadRandom_fb (r : Reg) (b d : Byte) : (s.loadRandom r b d).fb = s.fb := rfl
@[simp] theorem State.loadRandom_pixel (r : Reg) (b d : Byte) (q : Col) (q' : Row) : (s.loadRandom r b d).pixel q q' = s.pixel q q' := rfl
@[simp] theorem State.loadRandom_redraw (r : Reg) (b d : Byte) : (s.loadRandom r b d).redraw = s.redraw := rfl
@[simp] theorem State.loadRandom_keys (r : Reg) (b d : Byte) : (s.loadRandom r b d).keys = s.keys := rfl
@[simp] theorem State.loadRandom_mem (r : Reg) (b d : Byte) : (s.loadRandom r b d).mem = s.mem := rfl
@[simp] theorem State.loadRandom_memRead (r : Reg) (b d : Byte) (q : Word) : (s.loadRandom r b d).memRead q = s.memRead q := rfl
@[simp] theorem State.loadRandom_fault (r : Reg) (b d : Byte) : (s.loadRandom r b d).fault = s.fault := rfl
@[simp] theorem State.loadRandom_stackDepth (r : Reg) (b d : Byte) : (s.loadRandom r b d).stackDepth = s.stackDepth := rfl
@[simp] theorem State.loadRandom_draws (r : Reg) (b d : Byte) : (s.loadRandom r b d).draws = s.draws := rfl

/-! ### The write of a result and its flag (R183) -/

@[simp] theorem State.writeResultThenFlag_pc (r : Reg) (b f : Byte) : (s.writeResultThenFlag r b f).pc = s.pc := rfl
@[simp] theorem State.writeResultThenFlag_i (r : Reg) (b f : Byte) : (s.writeResultThenFlag r b f).i = s.i := rfl
@[simp] theorem State.writeResultThenFlag_stack (r : Reg) (b f : Byte) : (s.writeResultThenFlag r b f).stack = s.stack := rfl
@[simp] theorem State.writeResultThenFlag_dt (r : Reg) (b f : Byte) : (s.writeResultThenFlag r b f).dt = s.dt := rfl
@[simp] theorem State.writeResultThenFlag_st (r : Reg) (b f : Byte) : (s.writeResultThenFlag r b f).st = s.st := rfl
@[simp] theorem State.writeResultThenFlag_fb (r : Reg) (b f : Byte) : (s.writeResultThenFlag r b f).fb = s.fb := rfl
@[simp] theorem State.writeResultThenFlag_pixel (r : Reg) (b f : Byte) (q : Col) (q' : Row) : (s.writeResultThenFlag r b f).pixel q q' = s.pixel q q' := rfl
@[simp] theorem State.writeResultThenFlag_redraw (r : Reg) (b f : Byte) : (s.writeResultThenFlag r b f).redraw = s.redraw := rfl
@[simp] theorem State.writeResultThenFlag_keys (r : Reg) (b f : Byte) : (s.writeResultThenFlag r b f).keys = s.keys := rfl
@[simp] theorem State.writeResultThenFlag_mem (r : Reg) (b f : Byte) : (s.writeResultThenFlag r b f).mem = s.mem := rfl
@[simp] theorem State.writeResultThenFlag_memRead (r : Reg) (b f : Byte) (q : Word) : (s.writeResultThenFlag r b f).memRead q = s.memRead q := rfl
@[simp] theorem State.writeResultThenFlag_fault (r : Reg) (b f : Byte) : (s.writeResultThenFlag r b f).fault = s.fault := rfl
@[simp] theorem State.writeResultThenFlag_stackDepth (r : Reg) (b f : Byte) : (s.writeResultThenFlag r b f).stackDepth = s.stackDepth := rfl
@[simp] theorem State.writeResultThenFlag_draws (r : Reg) (b f : Byte) : (s.writeResultThenFlag r b f).draws = s.draws := rfl

/-! ### The store of one register (R218) -/

@[simp] theorem State.storeReg_v (k : Reg) : (s.storeReg k).v = s.v := rfl
@[simp] theorem State.storeReg_readV (k : Reg) (q : Reg) : (s.storeReg k).readV q = s.readV q := rfl
@[simp] theorem State.storeReg_pc (k : Reg) : (s.storeReg k).pc = s.pc := rfl
@[simp] theorem State.storeReg_i (k : Reg) : (s.storeReg k).i = s.i := rfl
@[simp] theorem State.storeReg_stack (k : Reg) : (s.storeReg k).stack = s.stack := rfl
@[simp] theorem State.storeReg_dt (k : Reg) : (s.storeReg k).dt = s.dt := rfl
@[simp] theorem State.storeReg_st (k : Reg) : (s.storeReg k).st = s.st := rfl
@[simp] theorem State.storeReg_fb (k : Reg) : (s.storeReg k).fb = s.fb := rfl
@[simp] theorem State.storeReg_pixel (k : Reg) (q : Col) (q' : Row) : (s.storeReg k).pixel q q' = s.pixel q q' := rfl
@[simp] theorem State.storeReg_redraw (k : Reg) : (s.storeReg k).redraw = s.redraw := rfl
@[simp] theorem State.storeReg_keys (k : Reg) : (s.storeReg k).keys = s.keys := rfl
@[simp] theorem State.storeReg_fault (k : Reg) : (s.storeReg k).fault = s.fault := rfl
@[simp] theorem State.storeReg_stackDepth (k : Reg) : (s.storeReg k).stackDepth = s.stackDepth := rfl
@[simp] theorem State.storeReg_draws (k : Reg) : (s.storeReg k).draws = s.draws := rfl

/-! ### The load of one register (R220) -/

@[simp] theorem State.loadReg_pc (k : Reg) : (s.loadReg k).pc = s.pc := rfl
@[simp] theorem State.loadReg_i (k : Reg) : (s.loadReg k).i = s.i := rfl
@[simp] theorem State.loadReg_stack (k : Reg) : (s.loadReg k).stack = s.stack := rfl
@[simp] theorem State.loadReg_dt (k : Reg) : (s.loadReg k).dt = s.dt := rfl
@[simp] theorem State.loadReg_st (k : Reg) : (s.loadReg k).st = s.st := rfl
@[simp] theorem State.loadReg_fb (k : Reg) : (s.loadReg k).fb = s.fb := rfl
@[simp] theorem State.loadReg_pixel (k : Reg) (q : Col) (q' : Row) : (s.loadReg k).pixel q q' = s.pixel q q' := rfl
@[simp] theorem State.loadReg_redraw (k : Reg) : (s.loadReg k).redraw = s.redraw := rfl
@[simp] theorem State.loadReg_keys (k : Reg) : (s.loadReg k).keys = s.keys := rfl
@[simp] theorem State.loadReg_mem (k : Reg) : (s.loadReg k).mem = s.mem := rfl
@[simp] theorem State.loadReg_memRead (k : Reg) (q : Word) : (s.loadReg k).memRead q = s.memRead q := rfl
@[simp] theorem State.loadReg_fault (k : Reg) : (s.loadReg k).fault = s.fault := rfl
@[simp] theorem State.loadReg_stackDepth (k : Reg) : (s.loadReg k).stackDepth = s.stackDepth := rfl
@[simp] theorem State.loadReg_draws (k : Reg) : (s.loadReg k).draws = s.draws := rfl

end Sys2Proof.Machine
end

