-- ==== Sys2Proof/Laws/Ops.lean ====
section
/-! SUPPORT. One lemma for each shared operation that says what it does, for proofs to cite in its place: register
writes, pixels, drawing, the sequences of Fx55 and Fx65, the key scan and the loads. -/

namespace Sys2Proof.Machine

/-! ## Registers -/

/-- A register after a register write (R30). -/
@[simp] theorem State.writeV_readV (s : State) (r : Reg) (b : Byte) (q : Reg) :
    (s.writeV r b).readV q = if q = r then b else s.readV q := by
  simp only [State.readV, State.writeV, Fin.getElem_fin, Vector.getElem_set, Fin.ext_iff, eq_comm (a := r.val)]

/-- A register after a result and a flag are written: the flag stands in `VF` (R183). -/
theorem State.writeResultThenFlag_readV (s : State) (x : Reg) (res f : Byte) (q : Reg) :
    (s.writeResultThenFlag x res f).readV q = if q = vf then f else if q = x then res else s.readV q := by
  simp [State.writeResultThenFlag]

/-- A state whose registers are replaced by another's, when they read alike, is unchanged. -/
theorem regs_ext {v v' : Vector Byte 16} (h : ∀ r : Reg, v[r] = v'[r]) : v = v' :=
  Vector.ext (fun k hk => h ⟨k, hk⟩)

/-- A skip changes the program counter alone (R160). -/
theorem State.skipIf_eq (s : State) (c : Bool) : s.skipIf c = { s with pc := if c = true then s.pc + 2 else s.pc } := by
  cases c <;> rfl

/-! ## Operands and flags as numbers -/

theorem zextAddr_toNat (nnn : Addr12) : (zextAddr nnn).toNat = nnn.toNat := by
  have := nnn.isLt
  simp [zextAddr]; omega

theorem zextByte_toNat (b : Byte) : (zextByte b).toNat = b.toNat := by
  have := b.isLt
  simp [zextByte]; omega

theorem lsbFlag_toNat (a : Byte) : (lsbFlag a).toNat = a.toNat % 2 := by simp [lsbFlag]

theorem msbFlag_toNat (a : Byte) : (msbFlag a).toNat = a.toNat / 128 := by
  have := a.isLt
  simp [msbFlag, Nat.shiftRight_eq_div_pow]; omega

/-- One count of a timer, never below 0 (R260, R262). -/
theorem countDown_toNat (t : Byte) : (countDown t).toNat = t.toNat - 1 := by
  have hlt := t.isLt
  unfold countDown
  split
  · next h => simp [h]
  · next h =>
    have : t.toNat ≠ 0 := fun e => h (BitVec.eq_of_toNat_eq e)
    simp [BitVec.toNat_sub]; omega

/-! ## The framebuffer -/

/-- A pixel after a pixel write (R45). -/
@[simp] theorem State.setPixel_pixel (s : State) (c : Col) (r : Row) (on : Bool) (c' : Col) (r' : Row) :
    (s.setPixel c r on).pixel c' r' = if c' = c ∧ r' = r then on else s.pixel c' r' := by
  simp only [State.pixel, State.setPixel, Fin.getElem_fin, Vector.getElem_set, Fin.ext_iff]
  by_cases hc : c.val = c'.val
  · by_cases hr : r.val = r'.val
    · simp [hc, hr]
    · simp [hc, hr, Ne.symm hr]
  · simp [hc, Ne.symm hc]

/-- Every pixel of the cleared framebuffer is off (R230). -/
@[simp] theorem Framebuffer.off_getElem (c : Col) (r : Row) : Framebuffer.off[c][r] = false := by
  simp [Framebuffer.off]

@[simp] theorem State.clearPixels_pixel (s : State) (c : Col) (r : Row) : s.clearPixels.pixel c r = false :=
  Framebuffer.off_getElem c r

/-- A pixel after a plot: the plotted pixel changes, no other does (R236). -/
theorem State.plot_pixel (s : State) (p : Col × Row) (c : Col) (r : Row) :
    (s.plot p).pixel c r = (s.pixel c r ^^ decide ((c, r) = p)) := by
  obtain ⟨pc, pr⟩ := p
  unfold State.plot
  split
  · next h =>
    rw [State.writeV_pixel, State.setPixel_pixel]
    by_cases hp : c = pc ∧ r = pr
    · obtain ⟨rfl, rfl⟩ := hp; simp_all
    · simp [hp, Prod.ext_iff]
  · next h =>
    rw [State.setPixel_pixel]
    by_cases hp : c = pc ∧ r = pr
    · obtain ⟨rfl, rfl⟩ := hp; simp_all
    · simp [hp, Prod.ext_iff]

/-- A register after a plot: `VF` is set when the pixel was on, and nothing else is written (R236). -/
theorem State.plot_readV (s : State) (p : Col × Row) (q : Reg) :
    (s.plot p).readV q = if q = vf ∧ s.pixel p.1 p.2 = true then 1 else s.readV q := by
  unfold State.plot
  split
  · next h => simp [h]
  · next h => simp [h]

@[simp] theorem State.plotAll_nil (s : State) : s.plotAll [] = s := rfl

@[simp] theorem State.plotAll_cons (s : State) (p : Col × Row) (ps : List (Col × Row)) :
    s.plotAll (p :: ps) = (s.plot p).plotAll ps := rfl

/-- What drawing leaves alone: everything but the framebuffer and the registers. -/
theorem State.plotAll_frame (ps : List (Col × Row)) (s : State) :
    s.plotAll ps = { s with fb := (s.plotAll ps).fb, v := (s.plotAll ps).v } := by
  induction ps generalizing s with
  | nil => rfl
  | cons p ps ih =>
    rw [State.plotAll_cons, ih]
    unfold State.plot
    split <;> rfl

/-- A pixel after distinct pixels are drawn: it changes when it is one of them (R236, R238). -/
theorem State.plotAll_pixel {ps : List (Col × Row)} (hn : ps.Nodup) (s : State) (c : Col) (r : Row) :
    (s.plotAll ps).pixel c r = (s.pixel c r ^^ decide ((c, r) ∈ ps)) := by
  induction ps generalizing s with
  | nil => simp
  | cons p ps ih =>
    obtain ⟨hp, hn⟩ := List.nodup_cons.mp hn
    rw [State.plotAll_cons, ih hn, State.plot_pixel]
    by_cases h : (c, r) = p
    · subst h; simp [hp]
    · simp [h]

/-- A register after distinct pixels are drawn: `VF` is set when one of them was on, and nothing else is written
(R236). -/
theorem State.plotAll_readV {ps : List (Col × Row)} (hn : ps.Nodup) (s : State) (q : Reg) :
    (s.plotAll ps).readV q = if q = vf ∧ ∃ p ∈ ps, s.pixel p.1 p.2 = true then 1 else s.readV q := by
  induction ps generalizing s with
  | nil => simp
  | cons p ps ih =>
    obtain ⟨hp, hn⟩ := List.nodup_cons.mp hn
    rw [State.plotAll_cons, ih hn, State.plot_readV]
    have hsame : (∃ p' ∈ ps, (s.plot p).pixel p'.1 p'.2 = true) ↔ ∃ p' ∈ ps, s.pixel p'.1 p'.2 = true := by
      refine exists_congr fun p' => and_congr_right fun hm => ?_
      rw [State.plot_pixel]
      have : (p'.1, p'.2) ≠ p := fun h => hp (h ▸ hm)
      simp [this]
    simp only [hsame, List.mem_cons]
    by_cases hq : q = vf
    · by_cases h1 : s.pixel p.1 p.2 = true
      · simp [hq, h1]
      · simp [hq, h1]
    · simp [hq]

/-- A pixel lies in a row of a sprite: its offset from the anchor, each coordinate wrapping on its own, is the row and
a column of the row whose bit is set (R233, R235). -/
theorem mem_spriteRowPixels (cx cy r : Nat) (row : Byte) (p : Col × Row) :
    p ∈ spriteRowPixels cx cy r row ↔
      ∃ c < 8, row.getLsbD (7 - c) = true ∧ p.1.val = (cx + c) % 64 ∧ p.2.val = (cy + r) % 32 := by
  obtain ⟨pc, pr⟩ := p
  simp only [spriteRowPixels, List.mem_map, List.mem_filter, List.mem_range, Prod.mk.injEq, Fin.ext_iff, Fin.ofNat]
  constructor
  · rintro ⟨c, ⟨hc, hb⟩, h1, h2⟩; exact ⟨c, hc, hb, h1.symm, h2.symm⟩
  · rintro ⟨c, hc, hb, h1, h2⟩; exact ⟨c, ⟨hc, hb⟩, h1.symm, h2.symm⟩

/-- The pixels a sprite covers (R232, R233, R235). -/
theorem State.mem_spritePixels (s : State) (cx cy n : Nat) (p : Col × Row) :
    p ∈ s.spritePixels cx cy n ↔ ∃ r < n, ∃ c < 8,
      (s.memRead (s.indexAddr r)).getLsbD (7 - c) = true ∧ p.1.val = (cx + c) % 64 ∧ p.2.val = (cy + r) % 32 := by
  simp only [State.spritePixels, List.mem_flatMap, List.mem_range, mem_spriteRowPixels, State.indexAddr]

/-- No two bits of a sprite of fewer than 32 rows land on one pixel (R238). -/
theorem State.spritePixels_nodup (s : State) (cx cy n : Nat) (hn : n ≤ 32) : (s.spritePixels cx cy n).Nodup := by
  unfold State.spritePixels
  refine List.nodup_flatMap.mpr ⟨fun r _ => ?_, ?_⟩
  · unfold spriteRowPixels
    refine List.Nodup.map_on ?_ (List.nodup_range.filter _)
    intro c hc d hd h
    simp only [List.mem_filter, List.mem_range] at hc hd
    simp only [Prod.mk.injEq, Fin.ext_iff, Fin.ofNat] at h
    omega
  · refine List.Pairwise.imp_of_mem ?_ List.nodup_range
    intro r r' hr hr' hne
    simp only [List.mem_range] at hr hr'
    rw [Function.onFun, List.disjoint_left]
    intro p hp hp'
    obtain ⟨c, _, _, _, h⟩ := (mem_spriteRowPixels ..).mp hp
    obtain ⟨c', _, _, _, h'⟩ := (mem_spriteRowPixels ..).mp hp'
    omega

/-! ## The sequences of Fx55 and Fx65 -/

theorem mem_regsUpTo (x k : Reg) : k ∈ regsUpTo x ↔ k ≤ x := by simp [regsUpTo, List.mem_finRange]

theorem regsUpTo_nodup (x : Reg) : (regsUpTo x).Nodup := (List.nodup_finRange 16).filter _

/-- The addresses of a multi-byte access of at most 4096 bytes are distinct (R83). -/
theorem physical_indexAddr_inj (s : State) {k k' : Nat} (hk : k < 4096) (hk' : k' < 4096)
    (h : physical (s.indexAddr k) = physical (s.indexAddr k')) : k = k' := by
  simp only [physical, State.indexAddr, Config.memSize, BitVec.toNat_add, BitVec.toNat_ofNat] at h
  have := s.i.isLt
  omega

/-- What storing registers leaves alone: everything but memory. -/
theorem storeRegs_frame (ks : List Reg) (s : State) :
    ks.foldl State.storeReg s = { s with mem := (ks.foldl State.storeReg s).mem } := by
  induction ks generalizing s with
  | nil => rfl
  | cons k ks ih => rw [List.foldl_cons, ih]; rfl

/-- A byte of memory after registers are stored: the register whose address it is, and the byte from before at every
other address (R218). -/
theorem storeRegs_memRead {ks : List Reg} (hn : ks.Nodup) (s : State) (a : Word) :
    (∀ k ∈ ks, physical a = physical (s.indexAddr k) → (ks.foldl State.storeReg s).memRead a = s.readV k) ∧
    ((∀ k ∈ ks, physical a ≠ physical (s.indexAddr k)) → (ks.foldl State.storeReg s).memRead a = s.memRead a) := by
  induction ks generalizing s with
  | nil => simp
  | cons k ks ih =>
    obtain ⟨hk, hn⟩ := List.nodup_cons.mp hn
    obtain ⟨h1, h2⟩ := ih hn (s.storeReg k)
    have hone : (s.storeReg k).memRead a = if physical a = physical (s.indexAddr k) then s.readV k else s.memRead a :=
      State.memWrite_memRead ..
    rw [List.foldl_cons]
    refine ⟨fun j hj hja => ?_, fun h => ?_⟩
    · rcases List.mem_cons.mp hj with rfl | hj
      · rw [h2, hone, if_pos hja]
        intro k' hk' hak'
        have : (j : Nat) = k' := physical_indexAddr_inj s (by omega) (by omega) (hja.symm.trans hak')
        exact hk (Fin.ext this ▸ hk')
      · exact h1 j hj hja
    · rw [h2 (fun k' hk' => h k' (by simp [hk'])), hone, if_neg (h k (by simp))]

/-- Storing registers keeps the canonical form of memory. -/
theorem storeRegs_wf (ks : List Reg) {s : State} (h : Memory.wf s.mem) : Memory.wf (ks.foldl State.storeReg s).mem := by
  induction ks generalizing s with
  | nil => exact h
  | cons k ks ih => exact ih (State.memWrite_wf h _ _)

/-- What loading registers leaves alone: everything but the registers. -/
theorem loadRegs_frame (ks : List Reg) (s : State) :
    ks.foldl State.loadReg s = { s with v := (ks.foldl State.loadReg s).v } := by
  induction ks generalizing s with
  | nil => rfl
  | cons k ks ih => rw [List.foldl_cons, ih]; rfl

/-- A register after registers are loaded: the byte at its address if it is one of them (R220). -/
theorem loadRegs_readV (ks : List Reg) (s : State) (q : Reg) :
    (ks.foldl State.loadReg s).readV q = if q ∈ ks then s.memRead (s.indexAddr q) else s.readV q := by
  induction ks generalizing s with
  | nil => simp
  | cons k ks ih =>
    rw [List.foldl_cons, ih]
    have hmem : (s.loadReg k).memRead ((s.loadReg k).indexAddr q) = s.memRead (s.indexAddr q) := rfl
    have hreg : (s.loadReg k).readV q = if q = k then s.memRead (s.indexAddr k) else s.readV q :=
      State.writeV_readV ..
    rw [hmem, hreg]
    by_cases hq : q = k
    · subst hq; simp
    · simp [hq]

/-! ## Keys -/

/-- The key scan finds the lowest pressed key (R253). -/
theorem State.firstPressed_eq_some (s : State) (k : Reg) :
    s.firstPressed = some k ↔ s.keys[k] = true ∧ ∀ j < k, s.keys[j] = false := by
  unfold State.firstPressed
  rw [List.find?_eq_some_iff_getElem]
  simp only [List.getElem_finRange, List.length_finRange]
  constructor
  · rintro ⟨hk, n, hn, hnk, hbefore⟩
    have hkn : k = ⟨n, hn⟩ := by rw [← hnk]; rfl
    subst hkn
    refine ⟨hk, fun j hj => ?_⟩
    have := hbefore j.val hj
    simpa using this
  · rintro ⟨hk, hbefore⟩
    refine ⟨hk, k.val, k.isLt, rfl, fun j hj => ?_⟩
    have := hbefore ⟨j, by omega⟩ hj
    simpa using this

/-- The key scan finds nothing when no key is pressed (R253). -/
theorem State.firstPressed_eq_none (s : State) : s.firstPressed = none ↔ ∀ k : Reg, s.keys[k] = false := by
  simp [State.firstPressed, List.find?_eq_none, List.mem_finRange]

/-! ## Loads -/

/-- What a load leaves alone: everything but memory (R304, R307). -/
theorem State.loadBytes_frame (bs : List Byte) (s : State) (base : Nat) :
    s.loadBytes base bs = { s with mem := (s.loadBytes base bs).mem } := by
  induction bs generalizing s base with
  | nil => rfl
  | cons b bs ih => rw [State.loadBytes, ih]

/-- A byte of memory after a load: the byte loaded there, and the byte from before outside the load (R304, R307). -/
theorem State.loadBytes_read (bs : List Byte) (s : State) (base a : Nat) :
    Memory.read (s.loadBytes base bs).mem a =
      if h : base ≤ a ∧ a < base + bs.length then bs[a - base] else Memory.read s.mem a := by
  induction bs generalizing s base with
  | nil => simp [State.loadBytes]
  | cons b bs ih =>
    rw [State.loadBytes, ih]
    by_cases h0 : a = base
    · subst h0; simp [Memory.read_write]
    · by_cases h : base + 1 ≤ a ∧ a < base + 1 + bs.length
      · have h' : base ≤ a ∧ a < base + (b :: bs).length := by simp; omega
        rw [dif_pos h, dif_pos h']
        have : a - base = (a - (base + 1)) + 1 := by omega
        simp [this]
      · have h' : ¬ (base ≤ a ∧ a < base + (b :: bs).length) := by simp; omega
        rw [dif_neg h, dif_neg h']
        simp [Memory.read_write, h0]

/-- A load inside memory keeps the canonical form. -/
theorem State.loadBytes_wf (bs : List Byte) {s : State} (h : Memory.wf s.mem) (base : Nat)
    (hfit : base + bs.length ≤ Config.memSize) : Memory.wf (s.loadBytes base bs).mem := by
  induction bs generalizing s base with
  | nil => exact h
  | cons b bs ih =>
    simp only [List.length_cons] at hfit
    exact ih (Memory.write_wf h (by omega) b) _ (by omega)

end Sys2Proof.Machine
end

