-- ==== Sys2Proof/Laws/PerInstr.lean ====
section
/-! SUPPORT. The per-instruction families: `DecodesBack`, that the word of a well-formed instruction decodes to it
(spec/30_encoding.md R103, R104), one lemma for each constructor of `Instr`. -/

namespace Sys2Proof.Laws.DecodesBack

/-- Decoding the word of a well-formed instruction gives the instruction back. -/
def Statement (i : Instr) : Prop := i.wellFormed = true → decodeWord (encode i) = i

theorem cls : Statement (.cls) := fun _ => by
  decide

theorem ret : Statement (.ret) := fun _ => by
  decide

theorem jp (nnn : Addr12) : Statement (.jp nnn) := fun _ => by
  simp [encode, decodeWord]

theorem call (nnn : Addr12) : Statement (.call nnn) := fun _ => by
  simp [encode, decodeWord]

theorem seImm (x : Reg) (nn : Byte) : Statement (.seImm x nn) := fun _ => by
  simp [encode, decodeWord]

theorem sneImm (x : Reg) (nn : Byte) : Statement (.sneImm x nn) := fun _ => by
  simp [encode, decodeWord]

theorem seReg (x : Reg) (y : Reg) : Statement (.seReg x y) := fun _ => by
  simp [encode, decodeWord, decode5]

theorem ldImm (x : Reg) (nn : Byte) : Statement (.ldImm x nn) := fun _ => by
  simp [encode, decodeWord]

theorem addImm (x : Reg) (nn : Byte) : Statement (.addImm x nn) := fun _ => by
  simp [encode, decodeWord]

theorem ldReg (x : Reg) (y : Reg) : Statement (.ldReg x y) := fun _ => by
  simp [encode, decodeWord, decode8]

theorem orReg (x : Reg) (y : Reg) : Statement (.orReg x y) := fun _ => by
  simp [encode, decodeWord, decode8]

theorem andReg (x : Reg) (y : Reg) : Statement (.andReg x y) := fun _ => by
  simp [encode, decodeWord, decode8]

theorem xorReg (x : Reg) (y : Reg) : Statement (.xorReg x y) := fun _ => by
  simp [encode, decodeWord, decode8]

theorem addReg (x : Reg) (y : Reg) : Statement (.addReg x y) := fun _ => by
  simp [encode, decodeWord, decode8]

theorem subReg (x : Reg) (y : Reg) : Statement (.subReg x y) := fun _ => by
  simp [encode, decodeWord, decode8]

theorem shr (x : Reg) (y : Reg) : Statement (.shr x y) := fun _ => by
  simp [encode, decodeWord, decode8]

theorem subn (x : Reg) (y : Reg) : Statement (.subn x y) := fun _ => by
  simp [encode, decodeWord, decode8]

theorem shl (x : Reg) (y : Reg) : Statement (.shl x y) := fun _ => by
  simp [encode, decodeWord, decode8]

theorem sneReg (x : Reg) (y : Reg) : Statement (.sneReg x y) := fun _ => by
  simp [encode, decodeWord, decode9]

theorem ldI (nnn : Addr12) : Statement (.ldI nnn) := fun _ => by
  simp [encode, decodeWord]

theorem jpV0 (nnn : Addr12) : Statement (.jpV0 nnn) := fun _ => by
  simp [encode, decodeWord]

theorem rnd (x : Reg) (nn : Byte) : Statement (.rnd x nn) := fun _ => by
  simp [encode, decodeWord]

theorem drw (x : Reg) (y : Reg) (n : Height) : Statement (.drw x y n) := fun _ => by
  simp [encode, decodeWord, nibble]

theorem skp (x : Reg) : Statement (.skp x) := fun _ => by
  simp [encode, decodeWord, decodeE]

theorem sknp (x : Reg) : Statement (.sknp x) := fun _ => by
  simp [encode, decodeWord, decodeE]

theorem ldVxDt (x : Reg) : Statement (.ldVxDt x) := fun _ => by
  simp [encode, decodeWord, decodeF]

theorem ldVxK (x : Reg) : Statement (.ldVxK x) := fun _ => by
  simp [encode, decodeWord, decodeF]

theorem ldDtVx (x : Reg) : Statement (.ldDtVx x) := fun _ => by
  simp [encode, decodeWord, decodeF]

theorem ldStVx (x : Reg) : Statement (.ldStVx x) := fun _ => by
  simp [encode, decodeWord, decodeF]

theorem addIVx (x : Reg) : Statement (.addIVx x) := fun _ => by
  simp [encode, decodeWord, decodeF]

theorem ldFVx (x : Reg) : Statement (.ldFVx x) := fun _ => by
  simp [encode, decodeWord, decodeF]

theorem ldBVx (x : Reg) : Statement (.ldBVx x) := fun _ => by
  simp [encode, decodeWord, decodeF]

theorem ldMemVx (x : Reg) : Statement (.ldMemVx x) := fun _ => by
  simp [encode, decodeWord, decodeF]

theorem ldVxMem (x : Reg) : Statement (.ldVxMem x) := fun _ => by
  simp [encode, decodeWord, decodeF]

/-- An unrecognized word matches no row, so each level of the dispatch falls through (R108). -/
theorem dw (w : Word) : Statement (.dw w) := fun h => by
  have hr : ¬ (recognized w = true) := by simpa [Instr.wellFormed] using h
  simp only [recognized, opcodeTable, opcodeRowsLow, opcodeRowsAlu, opcodeRowsHigh, List.any_append, List.any_cons,
    List.any_nil, Bool.or_eq_true, Bool.false_eq_true, or_false, not_or, selects_FFFF, selects_F000, selects_F00F,
    selects_F0FF, BitVec.reduceToNat] at hr
  have ht := fieldT_eq w
  have hn := fieldN_val w
  have hnn := fieldNN_toNat w
  have hlt := w.isLt
  have hn0 : fieldN w = 0 ↔ (fieldN w).val = 0 := Fin.ext_iff
  show decodeWord w = .dw w
  unfold decodeWord
  split
  case h_1 => rw [decode0, if_neg hr.1.1.1, if_neg hr.1.1.2.1]
  case h_6 => rw [decode5, if_neg (by rw [hn0]; omega)]
  case h_9 => unfold decode8; split <;> first | rfl | (exfalso; omega)
  case h_10 => rw [decode9, if_neg (by rw [hn0]; omega)]
  case h_15 => unfold decodeE; split <;> first | rfl | (exfalso; omega)
  case h_16 => unfold decodeF; split <;> first | rfl | (exfalso; omega)
  all_goals first | rfl | (exfalso; omega)

end Sys2Proof.Laws.DecodesBack
end

