-- ==== Sys2Proof/Tests/Slice0.lean ====
section
/-! SUPPORT. The model's own tests. Expected results are those of spec/95_test_vectors.md, whose ids (C8, A14, ...)
the names carry, or are written out from the rule a comment cites. -/

namespace Sys2Proof.Tests

open Sys2Proof.Machine

/-! ## Well-formedness: the one check refuses an ill-formed term -/

/-- A data word that holds an instruction's word, here that of `CLS` (R108). -/
theorem test_wellFormed_refuses_recognized_data_word : (Instr.dw 0x00E0).wellFormed = false := by decide

theorem test_wellFormed_accepts_unrecognized_data_word : (Instr.dw 0x0123).wellFormed = true := by decide

/-! ## Decoding: words written out from the bit patterns of the spec's encodings (R101, R104) -/

theorem test_decode_families_0_to_3 :
    decodeWord 0b0000000011100000 = .cls ∧ decodeWord 0b0000000011101110 = .ret ∧
    decodeWord 0b0001001000110100 = .jp 0x234 ∧ decodeWord 0b0010101111001101 = .call 0xBCD ∧
    decodeWord 0b0011101001011100 = .seImm 10 0x5C := by decide

theorem test_decode_families_4_to_7 :
    decodeWord 0b0100110000000101 = .sneImm 12 0x05 ∧ decodeWord 0b0101000111010000 = .seReg 1 13 ∧
    decodeWord 0b0110101000101011 = .ldImm 10 0x2B ∧ decodeWord 0b0111000111111111 = .addImm 1 0xFF := by decide

theorem test_decode_family_8_moves_and_logic :
    decodeWord 0b1000001011110000 = .ldReg 2 15 ∧ decodeWord 0b1000001011110001 = .orReg 2 15 ∧
    decodeWord 0b1000001011110010 = .andReg 2 15 ∧ decodeWord 0b1000001011110011 = .xorReg 2 15 := by decide

theorem test_decode_family_8_flag_alu :
    decodeWord 0b1000001011110100 = .addReg 2 15 ∧ decodeWord 0b1000001011110101 = .subReg 2 15 ∧
    decodeWord 0b1000001011110110 = .shr 2 15 ∧ decodeWord 0b1000001011110111 = .subn 2 15 ∧
    decodeWord 0b1000001011111110 = .shl 2 15 := by decide

theorem test_decode_families_9_to_E :
    decodeWord 0b1001010110100000 = .sneReg 5 10 ∧ decodeWord 0b1010000011110001 = .ldI 0x0F1 ∧
    decodeWord 0b1011000011110001 = .jpV0 0x0F1 ∧ decodeWord 0b1100001100001111 = .rnd 3 0x0F ∧
    decodeWord 0b1101000100100101 = .drw 1 2 5 ∧ decodeWord 0b1110011010011110 = .skp 6 ∧
    decodeWord 0b1110011010100001 = .sknp 6 := by decide

theorem test_decode_family_F :
    decodeWord 0b1111011000000111 = .ldVxDt 6 ∧ decodeWord 0b1111011000001010 = .ldVxK 6 ∧
    decodeWord 0b1111011000010101 = .ldDtVx 6 ∧ decodeWord 0b1111011000011000 = .ldStVx 6 ∧
    decodeWord 0b1111011000011110 = .addIVx 6 ∧ decodeWord 0b1111011000101001 = .ldFVx 6 ∧
    decodeWord 0b1111011000110011 = .ldBVx 6 ∧ decodeWord 0b1111011001010101 = .ldMemVx 6 ∧
    decodeWord 0b1111011001100101 = .ldVxMem 6 := by decide

/-- T1 to T7: words of every family with unrecognized words (R106, R107). -/
theorem test_decode_unrecognized :
    decodeWord 0x0123 = .dw 0x0123 ∧ decodeWord 0x01E0 = .dw 0x01E0 ∧ decodeWord 0x5121 = .dw 0x5121 ∧
    decodeWord 0x8128 = .dw 0x8128 ∧ decodeWord 0x9121 = .dw 0x9121 ∧ decodeWord 0xE1FF = .dw 0xE1FF ∧
    decodeWord 0xF1FF = .dw 0xF1FF := by decide

/-- The first byte of an instruction is its high byte (R76), and one byte is no instruction (R100). -/
theorem test_decode_bytes :
    decodeBytes [0x6A, 0x2B, 0x00] = .ok (.ldImm 10 0x2B, [0x00]) ∧ decodeBytes [0x6A] = .error .truncated ∧
    decodeTableWord 16 0x6A2B = some (.ldImm 10 0x2B) := ⟨rfl, rfl, rfl⟩

/-- No two rows of the opcode map select one word (R103). -/
theorem test_opcode_rows_disjoint :
    opcodeTable.length = 34 ∧
    opcodeTable.Pairwise (fun r r' => r.pat &&& (r.mask &&& r'.mask) ≠ r'.pat &&& (r.mask &&& r'.mask)) := by decide

/-! ## One step from a small state -/

/-- The state after `power_on` with a word stored at `pc`: the vectors' start state. -/
def start (pc : Word) (w : Nat) : State := { State.reset with pc := pc }.withFetchWord 16 w

/-- Registers set before the step. -/
def withV (s : State) (vs : List (Reg × Byte)) : State := vs.foldl (fun s p => s.writeV p.1 p.2) s

/-- Bytes of memory set before the step. -/
def withM (s : State) (ms : List (Word × Byte)) : State := ms.foldl (fun s p => s.memWrite p.1 p.2) s

/-- Keys pressed before the step. -/
def withK (s : State) (ks : List Reg) : State := { s with keys := ks.foldl (fun (v : Vector Bool 16) (k : Reg) => v.set k true) s.keys }

/-- What a view shows of the state one step leaves; nothing if the step stops. -/
def after {α : Type} (s : State) (view : State → α) : Option α :=
  match step s with
  | .next t => some (view t)
  | _ => none

/-- D1, D2. -/
theorem test_cls_D1 :
    after (withV { start 0x200 0x00E0 with fb := (State.reset.setPixel 3 5 true).fb } [(15, 5)])
      (fun t => (t.pixel 3 5, t.redraw, t.readV 15)) = some (false, true, 5) := by decide

theorem test_ret_C1 : after { start 0x212 0x00EE with stack := [0x206] } (fun t => (t.pc, t.stack)) = some (0x206, []) := by
  decide

theorem test_ret_C2 : after (start 0x212 0x00EE) (fun t => (t.pc, t.fault)) = some (0x214, .stackUnderflow) := by decide

theorem test_jp_C5 : after (start 0x200 0x1333) (·.pc) = some 0x333 := by decide

theorem test_call_C7 : after (start 0xFFE 0x2300) (fun t => (t.pc, t.stack)) = some (0x300, [0x1000]) := by decide

theorem test_call_C8 :
    after { start 0x206 0x2300 with stack := [0x204, 0x202], stackDepth := some 2 }
      (fun t => (t.pc, t.stack, t.fault)) = some (0x208, [0x204, 0x202], .stackOverflow) := by decide

theorem test_jpV0_C11_C12 :
    after (withV (start 0x200 0xBFFF) [(0, 1)]) (·.pc) = some 0x1000 ∧
    after (withV (start 0x200 0xB300) [(0, 4), (3, 9)]) (·.pc) = some 0x304 := by decide

theorem test_seImm_C14_C21 :
    after (withV (start 0x208 0x3100) [(1, 3)]) (·.pc) = some 0x20A ∧
    after (start 0xFFE 0x3000) (·.pc) = some 0x1002 := by decide

theorem test_sneImm_C15_C16 :
    after (withV (start 0x300 0x4A05) [(10, 6)]) (·.pc) = some 0x304 ∧
    after (withV (start 0x300 0x4A05) [(10, 5)]) (·.pc) = some 0x302 := by decide

theorem test_seReg_C17 : after (withV (start 0x200 0x5120) [(1, 0x7F), (2, 0x7F)]) (·.pc) = some 0x204 := by decide

theorem test_sneReg_C19_C20 :
    after (withV (start 0x200 0x9120) [(1, 1), (2, 2)]) (·.pc) = some 0x204 ∧
    after (withV (start 0x200 0x9330) [(3, 1)]) (·.pc) = some 0x202 := by decide

theorem test_skp_C22_C23 :
    after (withK (withV (start 0x220 0xE19E) [(1, 5)]) [5]) (·.pc) = some 0x224 ∧
    after (withK (withV (start 0x220 0xE19E) [(1, 5)]) [4]) (·.pc) = some 0x222 := by decide

theorem test_sknp_C24_C25 :
    after (withV (start 0x220 0xE1A1) [(1, 5)]) (·.pc) = some 0x224 ∧
    after (withK (withV (start 0x220 0xE1A1) [(1, 5)]) [5]) (·.pc) = some 0x222 := by decide

/-- C26, C27: the draw decides where `V[x]` is no key number, whatever key 5 is. -/
theorem test_keyTest_C26_C27 :
    (withK State.reset [5]).keyTest 0x15 true = true ∧ (withK State.reset [5]).keyTest 0x15 false = false := by decide

/-- T8, T10: a fetch across the top of memory, and one from above it. -/
theorem test_ldImm_T8_T10 :
    after (start 0xFFF 0x6A2B) (fun t => (t.pc, t.readV 10)) = some (0x1001, 0x2B) ∧
    after (withM { State.reset with pc := 0x1204 } [(0x204, 0x61), (0x205, 0x07)]) (fun t => (t.pc, t.readV 1))
      = some (0x1206, 7) := by decide

theorem test_addImm_A3_A4 :
    after (withV (start 0x200 0x71FF) [(1, 5), (15, 9)]) (fun t => (t.readV 1, t.readV 15)) = some (4, 9) ∧
    after (withV (start 0x200 0x7101) [(1, 0xFF)]) (fun t => (t.readV 1, t.readV 15)) = some (0, 0) := by decide

theorem test_ldReg_A5 : after (withV (start 0x200 0x8AF0) [(15, 1)]) (·.readV 10) = some 1 := by decide

theorem test_orReg_A6 :
    after (withV (start 0x200 0x8121) [(1, 0x0C), (2, 0x0A), (15, 7)]) (fun t => (t.readV 1, t.readV 15))
      = some (0x0E, 7) := by decide

theorem test_andReg_A7 :
    after (withV (start 0x200 0x8122) [(1, 0x0C), (2, 0x0A), (15, 7)]) (fun t => (t.readV 1, t.readV 15))
      = some (0x08, 7) := by decide

theorem test_xorReg_A8 :
    after (withV (start 0x200 0x8123) [(1, 0x0C), (2, 0x0A), (15, 7)]) (fun t => (t.readV 1, t.readV 15))
      = some (0x06, 7) := by decide

theorem test_addReg_A10_A14 :
    after (withV (start 0x200 0x8014) [(0, 0xF0), (1, 0x20)]) (fun t => (t.readV 0, t.readV 15)) = some (0x10, 1) ∧
    after (withV (start 0x200 0x8F14) [(15, 0xF0), (1, 0x20)]) (·.readV 15) = some 1 := by decide

theorem test_addReg_A15 :
    after (withV (start 0x200 0x81F4) [(1, 0x10), (15, 1)]) (fun t => (t.readV 1, t.readV 15)) = some (0x11, 0) := by
  decide

theorem test_subReg_A17_A18 :
    after (withV (start 0x200 0x8125) [(1, 7), (2, 7)]) (fun t => (t.readV 1, t.readV 15)) = some (0, 1) ∧
    after (withV (start 0x200 0x8125) [(1, 0), (2, 1)]) (fun t => (t.readV 1, t.readV 15)) = some (0xFF, 0) := by decide

theorem test_subReg_A20 : after (withV (start 0x200 0x8F25) [(15, 3), (2, 5)]) (·.readV 15) = some 0 := by decide

theorem test_shr_A22_A24 :
    after (withV (start 0x200 0x8306) [(3, 1), (15, 1)]) (fun t => (t.readV 3, t.readV 15)) = some (0, 1) ∧
    after (withV (start 0x200 0x8F06) [(15, 3)]) (·.readV 15) = some 0 := by decide

theorem test_shr_A23 :
    after (withV (start 0x200 0x8346) [(3, 0x80), (4, 0xFF)]) (fun t => (t.readV 3, t.readV 15)) = some (0x40, 0) := by
  decide

theorem test_subn_A25_A26 :
    after (withV (start 0x200 0x8127) [(1, 5), (2, 7)]) (fun t => (t.readV 1, t.readV 15)) = some (2, 1) ∧
    after (withV (start 0x200 0x8127) [(1, 1), (2, 0)]) (fun t => (t.readV 1, t.readV 15)) = some (0xFF, 0) := by decide

theorem test_subn_A28 : after (withV (start 0x200 0x8F27) [(15, 9), (2, 5)]) (·.readV 15) = some 0 := by decide

theorem test_shl_A29_A31 :
    after (withV (start 0x200 0x830E) [(3, 0x81)]) (fun t => (t.readV 3, t.readV 15)) = some (2, 1) ∧
    after (withV (start 0x200 0x830E) [(3, 0x7F), (15, 1)]) (fun t => (t.readV 3, t.readV 15)) = some (0xFE, 0) := by
  decide

theorem test_shl_A32_A33 :
    after (withV (start 0x200 0x8F0E) [(15, 0x81)]) (·.readV 15) = some 2 ∧
    after (withV (start 0x200 0x8F0E) [(15, 0x7F)]) (·.readV 15) = some 0 := by decide

/-- A34, A36, the draw given. -/
theorem test_rnd_A34_A36 :
    (State.reset.loadRandom 3 0x0F 0xA7).readV 3 = 7 ∧ (State.reset.loadRandom 3 0xFF 0x5C).readV 3 = 0x5C := by decide

theorem test_ldI_M1 : after (start 0x200 0xA300) (·.i) = some 0x300 := by decide

theorem test_addIVx_M2_M3 :
    after (withV { start 0x200 0xF31E with i := 0x0FFF } [(3, 1)]) (fun t => (t.i, t.readV 15)) = some (0x1000, 0) ∧
    after (withV { start 0x200 0xF31E with i := 0xFFFF } [(3, 2)]) (·.i) = some 0x0001 := by decide

theorem test_ldFVx_M5_M7 :
    after (withV (start 0x200 0xF029) [(0, 0x0A)]) (·.i) = some 0x0082 ∧
    after (withV (start 0x200 0xF029) [(0, 0xFF)]) (·.i) = some 0x054B := by decide

theorem test_ldBVx_M9 :
    after (withM (withV { start 0x200 0xF133 with i := 0x300 } [(1, 7)]) [(0x300, 9), (0x301, 9), (0x302, 9)])
      (fun t => (t.memRead 0x300, t.memRead 0x301, t.memRead 0x302, t.i)) = some (0, 0, 7, 0x300) := by decide

theorem test_ldBVx_M11 :
    after (withV { start 0x200 0xF133 with i := 0xFFE } [(1, 123)])
      (fun t => (t.memRead 0xFFE, t.memRead 0xFFF, t.memRead 0x000)) = some (1, 2, 3) := by decide

theorem test_ldMemVx_M13 :
    after (withV { start 0x200 0xF255 with i := 0x300 } [(0, 1), (1, 2), (2, 3), (3, 4)])
      (fun t => (t.memRead 0x300, t.memRead 0x301, t.memRead 0x302, t.memRead 0x303, t.i)) = some (1, 2, 3, 0, 0x300) := by
  decide

theorem test_ldMemVx_M14 :
    after (withV { start 0x200 0xF155 with i := 0xFFF } [(0, 0x11), (1, 0x22)])
      (fun t => (t.memRead 0xFFF, t.memRead 0x000)) = some (0x11, 0x22) := by decide

theorem test_ldVxMem_M16 :
    after (withV (withM { start 0x200 0xF265 with i := 0x300 } [(0x300, 2), (0x301, 3), (0x302, 4)]) [(3, 0x99)])
      (fun t => (t.readV 0, t.readV 1, t.readV 2, t.readV 3, t.i)) = some (2, 3, 4, 0x99, 0x300) := by decide

theorem test_ldVxMem_M18 :
    after (withM { start 0x200 0xF165 with i := 0x1FFF } [(0xFFF, 0x12), (0x000, 0x34)])
      (fun t => (t.readV 0, t.readV 1)) = some (0x12, 0x34) := by decide

/-- D6 and D9: rows wrap on their own, and the anchor is the old `VF`. -/
theorem test_drw_D6_D9 :
    after (withM (withV { start 0x200 0xD012 with i := 0x300 } [(0, 3), (1, 31)]) [(0x300, 0x80), (0x301, 0x80)])
      (fun t => (t.pixel 3 31, t.pixel 3 0, t.pixel 3 1, t.readV 15)) = some (true, true, false, 0) ∧
    after (withM (withV { start 0x200 0xDF11 with i := 0x300 } [(15, 10)]) [(0x300, 0x80)])
      (fun t => (t.pixel 10 0, t.pixel 0 0, t.readV 15, t.redraw)) = some (true, false, 0, true) := by decide

theorem test_drw_D11 :
    after ((withM { start 0x200 0xD001 with i := 0x300 } [(0x300, 0xC0)]).setPixel 1 0 true)
      (fun t => (t.pixel 0 0, t.pixel 1 0, t.readV 15)) = some (true, false, 1) := by decide

theorem test_ldVxDt_K1 : after { start 0x200 0xF107 with dt := 3 } (fun t => (t.readV 1, t.dt)) = some (3, 3) := by decide

theorem test_ldDtVx_K2 : after (withV (start 0x200 0xF015) [(0, 5)]) (fun t => (t.dt, t.st)) = some (5, 0) := by decide

theorem test_ldStVx_K3 :
    after (withV (start 0x200 0xF318) [(3, 0x10)]) (fun t => (t.st, t.dt, t.soundActive)) = some (0x10, 0, true) := by
  decide

theorem test_ldVxK_K4 :
    after (withK (start 0x20A 0xF20A) [7, 9]) (fun t => (t.pc, t.readV 2)) = some (0x20C, 7) := by decide

theorem test_ldVxK_K5_K7 :
    after (withV (start 0x20A 0xF20A) [(2, 0x33)]) (fun t => (t.pc, t.readV 2)) = some (0x20A, 0x33) ∧
    after (start 0x000 0xF00A) (·.pc) = some 0x000 := by decide

theorem test_dw_T2_T7 :
    after (withV (start 0x200 0x5121) [(1, 3), (2, 3)]) (·.pc) = some 0x202 ∧
    after ((start 0x200 0x01E0).setPixel 9 9 true) (fun t => (t.pc, t.pixel 9 9, t.redraw)) = some (0x202, true, false) := by
  decide

theorem test_halted_T11 :
    after { start 0x200 0x6A2B with fault := .stackUnderflow } id = some { start 0x200 0x6A2B with fault := .stackUnderflow } := by
  decide

/-! ## The other transactions -/

theorem test_stepTimers_TM2_TM5 :
    ({ State.reset with st := 1 }.stepTimers.dt, { State.reset with st := 1 }.stepTimers.soundActive) = (0, false) ∧
    ({ State.reset with dt := 5, fault := .stackUnderflow }.stepTimers.dt) = 5 := by decide

theorem test_loadProgram_L7 :
    let s := (State.reset.loadFont Config.defaultFont).loadProgram [0x12, 0x00]
    (s.memRead 0x200, s.memRead 0x201, s.memRead 0x050, s.memRead 0x09F) = (0x12, 0x00, 0xF0, 0x80) := by
  decide +kernel

theorem test_loadStatus_L1_L2 (b b' : List Byte) (h : b.length = 3584) (h' : b'.length = 3585) :
    loadStatus b = .ok ∧ loadStatus b' = .romTooLarge := by
  simp [loadStatus, romTooLarge, Config.progBase, Config.memSize, h, h']

/-- The start state of L5. -/
def dirty : State :=
  withM { State.reset with pc := 0x345, i := 0x123, stack := [0x202], dt := 4, redraw := true, fault := .stackUnderflow }
    [(0x300, 0x42)]

theorem test_reset_L5 :
    (dirty.hostReset.pc, dirty.hostReset.i, dirty.hostReset.stack, dirty.hostReset.dt) = (0x200, 0, [], 0) ∧
    (dirty.hostReset.redraw, dirty.hostReset.fault, dirty.hostReset.memRead 0x300) = (true, .noFault, 0x42) := by decide

/-! ## Witnesses: concrete states and operands that meet every hypothesis of a statement together -/

/-- A busy state: a stack that is full at its finite depth, memory with a word at `pc`, bytes at 0x300 and at the top
of memory, registers and a timer set, a pixel on. -/
def busy (w : Nat) : State :=
  withM (withV { start 0x200 w with stack := [0x204, 0x202], stackDepth := some 2, i := 0x300, dt := 3,
                                    fb := (State.reset.setPixel 3 5 true).fb }
    [(0, 0x21), (1, 15), (2, 16), (15, 0x80)]) [(0x300, 0x80), (0x301, 0x42), (0xFFF, 7)]

/-- The step of a state answers a next state. -/
theorem answers (s : State) : (after s (fun _ => ())).isSome = true → ∃ t, step s = .next t := by
  unfold after
  cases step s with
  | next t => exact fun _ => ⟨t, rfl⟩
  | fault r => exact nomatch r
  | refused r => simp

/-- StepKeepsInvariant, with a call that overflows the stack, and a store. -/
theorem test_witness_StepKeepsInvariant :
    (∃ t, (busy 0x2300).Inv ∧ step (busy 0x2300) = .next t) ∧ (∃ t, (busy 0xF255).Inv ∧ step (busy 0xF255) = .next t) := by
  obtain ⟨t, ht⟩ := answers (busy 0x2300) (by decide)
  obtain ⟨u, hu⟩ := answers (busy 0xF255) (by decide)
  exact ⟨⟨t, ⟨by decide, by decide, by decide⟩, ht⟩, u, ⟨by decide, by decide, by decide⟩, hu⟩

/-- EveryTransactionKeepsInvariant, from a faulted state with its cause. -/
theorem test_witness_EveryTransactionKeepsInvariant :
    ∃ t, { busy 0x2300 with fault := .stackOverflow }.Inv ∧
      (Transaction.loadProgram [0x12, 0x00]).run { busy 0x2300 with fault := .stackOverflow } = .next t :=
  ⟨_, ⟨by decide, by decide, by decide⟩, rfl⟩

/-- StepRunsDecodedInstruction. -/
theorem test_witness_StepRunsDecodedInstruction :
    (busy 0xD125).fault = .noFault ∧
    decodeBytes [(busy 0xD125).memRead (busy 0xD125).pc, (busy 0xD125).memRead ((busy 0xD125).pc + 1)]
      = .ok (.drw 1 2 5, []) := ⟨rfl, rfl⟩

/-- PlacedWordIsNextInstruction, at the lowest and the highest word. -/
theorem test_witness_PlacedWordIsNextInstruction :
    decodeTableWord 16 0 = some (.dw 0) ∧ decodeTableWord 16 0xFFFF = some (.dw 0xFFFF) ∧
    decodeTableWord 16 0xF365 = some (.ldVxMem 3) := ⟨rfl, rfl, rfl⟩

/-- HaltedCoreStandsStill and FaultIsStickyUntilReset. -/
theorem test_witness_fault_statements :
    { busy 0x6105 with fault := .stackUnderflow }.fault ≠ .noFault ∧ Transaction.clearRedraw ≠ .powerOn ∧
    Transaction.clearRedraw ≠ .reset ∧
    ∃ t, Transaction.clearRedraw.run { busy 0x6105 with fault := .stackUnderflow } = .next t :=
  ⟨by decide, by decide, by decide, _, rfl⟩

/-- PcAfterEveryStep, RedrawChangedOnlyByDisplayInstructions: with the flag set and with it clear. -/
theorem test_witness_step_statements :
    (∃ t, (busy 0x00EE).fault = .noFault ∧ step (busy 0x00EE) = .next t ∧
      decodeWord (busy 0x00EE).fetchWord ≠ .cls ∧ ∀ x y n, decodeWord (busy 0x00EE).fetchWord ≠ .drw x y n) ∧
    (∃ t, { busy 0x00EE with redraw := true }.redraw = true ∧ step { busy 0x00EE with redraw := true } = .next t) := by
  obtain ⟨t, ht⟩ := answers (busy 0x00EE) (by decide)
  obtain ⟨u, hu⟩ := answers { busy 0x00EE with redraw := true } (by decide)
  have hd : decodeWord (busy 0x00EE).fetchWord = .ret := by decide
  exact ⟨⟨t, rfl, ht, by rw [hd]; nofun, by rw [hd]; nofun⟩, u, rfl, hu⟩

/-- OnlyListedRegistersWritten: `V[14]` beside Fx65 with `x = 13`, and `VF` beside an immediate load. -/
theorem test_witness_OnlyListedRegistersWritten :
    (∃ t, exec (.ldVxMem 13) (busy 0) = .next t ∧ 14 ∉ Spec.writesV (.ldVxMem 13)) ∧
    (∃ t, exec (.ldImm 14 7) (busy 0) = .next t ∧ vf ∉ Spec.writesV (.ldImm 14 7)) :=
  ⟨⟨_, rfl, by decide⟩, _, rfl, by decide⟩

/-- OnlyListedStateWritten: an instruction that writes none of the parts, and one that stores. -/
theorem test_witness_OnlyListedStateWritten :
    (∃ t, exec (.jp 0x300) (busy 0) = .next t ∧ Spec.writes (.jp 0x300) = []) ∧
    (∃ t, exec (.ldBVx 1) (busy 0) = .next t ∧ .fb ∉ Spec.writes (.ldBVx 1)) :=
  ⟨⟨_, rfl, rfl⟩, _, rfl, by decide⟩

/-- OnlyStoredBytesChange, DecimalDigitsAreStored, RegistersAreStored: the bytes next to the stored ones. -/
theorem test_witness_stored_bytes :
    (∃ t, exec (.ldBVx 1) (busy 0) = .next t ∧ physical 0x303 ∉ Spec.storedAt (busy 0) (.ldBVx 1) ∧
      physical 0x2FF ∉ Spec.storedAt (busy 0) (.ldBVx 1)) ∧
    (∃ t, exec (.ldMemVx 15) (busy 0) = .next t ∧ physical 0x310 ∉ Spec.storedAt (busy 0) (.ldMemVx 15) ∧
      physical 0x30F ∈ Spec.storedAt (busy 0) (.ldMemVx 15)) :=
  ⟨⟨_, rfl, by decide, by decide⟩, _, rfl, by decide, by decide⟩

/-- DrawsAffectOnlyDrawingInstructions and KeySkips: the key numbers 15 and 16, and Cxnn. -/
theorem test_witness_key_numbers :
    Spec.takesDraw (busy 0) (.skp 1) = false ∧ ((busy 0).readV 1).toNat < 16 ∧
    Spec.takesDraw (busy 0) (.skp 2) = true ∧ 16 ≤ ((busy 0).readV 2).toNat ∧
    Spec.takesDraw (busy 0) (.rnd 3 0xFF) = true := by decide

/-- MemoriesThatReadAlikeAreEqual. -/
theorem test_witness_MemoriesThatReadAlikeAreEqual :
    Memory.wf (busy 0x6105).mem ∧ ∀ a, Memory.read (busy 0x6105).mem a = Memory.read (busy 0x6105).mem a :=
  ⟨by decide, fun _ => rfl⟩

/-- DecodeOfEncodeIsInstruction. -/
theorem test_witness_DecodeOfEncodeIsInstruction :
    (Instr.drw 15 15 15).wellFormed = true ∧ (Instr.dw 0x5121).wellFormed = true := by decide

/-- DecoderFollowsOpcodeMap: the first row and the last. -/
theorem test_witness_DecoderFollowsOpcodeMap :
    opcodeTable[0]? = some ⟨0x00E0, 0xFFFF⟩ ∧ opcodeTable[33]? = some ⟨0xF065, 0xF0FF⟩ ∧ opcodeTable[34]? = none :=
  ⟨rfl, rfl, rfl⟩

/-- ReturnPopsOrUnderflows: a stack of one entry, and an empty one. -/
theorem test_witness_ReturnPopsOrUnderflows :
    { busy 0 with stack := [0x202] }.stack = 0x202 :: [] ∧ State.reset.stack = [] := ⟨rfl, rfl⟩

/-- CallPushesOrOverflows and ReturnResumesAfterCall: one entry short of the depth, the full stack, no bound. -/
theorem test_witness_call_statements :
    (let s : State := { busy 0 with stack := [0x202] }
     s.stackDepth ≠ some s.stack.length ∧ ∃ t t' : State, exec (.call 0x300) s = .next t ∧ t'.stack = t.stack) ∧
    (busy 0).stackDepth = some (busy 0).stack.length ∧ State.reset.stackDepth ≠ some State.reset.stack.length :=
  ⟨⟨by decide, _, _, rfl, rfl⟩, rfl, by decide⟩

/-- JumpToItselfRepeats. -/
theorem test_witness_JumpToItselfRepeats :
    (start 0x333 0x1333).fault = .noFault ∧ (start 0x333 0x1333).fetchWord = encode (.jp 0x333) ∧
    (start 0x333 0x1333).pc.toNat = (0x333 : Addr12).toNat := by decide

/-- UnrecognizedWordIsNoOp. -/
theorem test_witness_UnrecognizedWordIsNoOp :
    (busy 0x5121).fault = .noFault ∧ ∀ row ∈ opcodeTable, (busy 0x5121).fetchWord &&& row.mask ≠ row.pat := by decide

/-- AddWritesCarry, SubtractionsWriteNotBorrow, ShiftsWriteBitShiftedOut, RegistersAreLoaded: the registers next to
`VF`, and a register that is neither the destination nor `VF`. -/
theorem test_witness_register_numbers :
    (14 : Reg) ≠ vf ∧ (15 : Reg) = vf ∧ (0 : Reg) ≠ 14 ∧ (0 : Reg) ≠ vf ∧ (14 : Reg) ≤ 14 ∧ (14 : Reg) < 15 := by decide

/-- StoreThenLoadRestoresRegisters, with other registers in between. -/
theorem test_witness_StoreThenLoadRestoresRegisters :
    ∃ t u : State, exec (.ldMemVx 15) (busy 0) = .next t ∧ u.mem = t.mem ∧ u.i = (busy 0).i ∧ u.readV 0 ≠ (busy 0).readV 0 :=
  ⟨_, State.mk (Vector.replicate 16 0) 0 0x300 [] 0 0 Framebuffer.off false (Vector.replicate 16 false)
      ((regsUpTo 15).foldl State.storeReg (busy 0)).mem .noFault none 0, rfl, rfl, rfl, by decide⟩

/-- StoredBytesAreFetched: the last two registers. -/
theorem test_witness_StoredBytesAreFetched :
    ∃ t, exec (.ldMemVx 15) (busy 0) = .next t ∧ (14 : Reg).val + 1 = (15 : Reg).val ∧ (15 : Reg) ≤ 15 :=
  ⟨_, rfl, rfl, by decide⟩

/-- SpriteDrawXorsPixels: a covered pixel that is on, and a sprite of no rows, which meets none. -/
theorem test_witness_SpriteDrawXorsPixels :
    (Spec.spriteCovers ((busy 0).setPixel 33 15 true) 0 1 1 33 15 = true ∧
      ((busy 0).setPixel 33 15 true).pixel 33 15 = true) ∧
    ∀ c r, Spec.spriteCovers (busy 0) 0 1 0 c r = true → (busy 0).pixel c r = false :=
  ⟨by decide, by intro c r h; simp [Spec.spriteCovers] at h⟩

/-- DrawingTwiceRestoresPixels: the second draw right after the first. -/
theorem test_witness_DrawingTwiceRestoresPixels :
    ∃ t t' : State, exec (.drw 0 1 2) (busy 0) = .next t ∧ t'.fb = t.fb ∧ t'.readV 0 = (busy 0).readV 0 ∧
      t'.readV 1 = (busy 0).readV 1 ∧ t'.i = (busy 0).i ∧ t'.mem = (busy 0).mem ∧
      Spec.spriteCovers (busy 0) 0 1 2 33 15 = true ∧ (busy 0).pixel 33 15 = false :=
  ⟨_, { busy 0 with fb := (((busy 0).writeV vf 0).plotAll
          ((busy 0).spritePixels ((busy 0).anchorCol 0) ((busy 0).anchorRow 1) 2)).fb },
    rfl, rfl, rfl, rfl, rfl, rfl, by decide, by decide⟩

/-- DrawOnClearedScreen. -/
theorem test_witness_DrawOnClearedScreen : ∃ t, exec .cls (busy 0) = .next t := ⟨_, rfl⟩

/-- KeyWaitTakesLowestKey: the highest key pressed alone, key 0 pressed with it, and none. -/
theorem test_witness_KeyWaitTakesLowestKey :
    ((withK (busy 0) [15]).keys[(15 : Reg)] = true ∧ ∀ j : Reg, j < 15 → (withK (busy 0) [15]).keys[j] = false) ∧
    ((withK (busy 0) [15, 0]).keys[(0 : Reg)] = true ∧ ∀ j : Reg, j < 0 → (withK (busy 0) [15, 0]).keys[j] = false) ∧
    ∀ k : Reg, (busy 0).keys[k] = false := by decide

/-- KeyWaitStallsInPlace. -/
theorem test_witness_KeyWaitStallsInPlace :
    (busy 0xF20A).fault = .noFault ∧ (busy 0xF20A).fetchWord = encode (.ldVxK 2) ∧
    ∀ k : Reg, (busy 0xF20A).keys[k] = false := by decide

/-- TimerStepCountsDown, TimersReachZero. -/
theorem test_witness_timer_statements : (busy 0).fault = .noFault ∧ (busy 0).dt.toNat = 3 := by decide

/-- FontIsLoaded: the bytes on either side of the table. ProgramIsLoadedWhole: the two lengths on either side of the
bound, the last byte that is loaded and the bytes on either side of a program of two bytes. -/
theorem test_witness_load_statements :
    ¬ (0x050 ≤ (0x04F : Word).toNat % 4096 ∧ (0x04F : Word).toNat % 4096 ≤ 0x09F) ∧
    ¬ (0x050 ≤ (0x0A0 : Word).toNat % 4096 ∧ (0x0A0 : Word).toNat % 4096 ≤ 0x09F) ∧
    (List.replicate 3584 (0 : Byte)).length ≤ 3584 ∧ 3584 < (List.replicate 3585 (0 : Byte)).length ∧
    3583 < (List.replicate 3584 (0 : Byte)).length ∧
    ¬ (0x200 ≤ (0x1FF : Word).toNat % 4096 ∧ (0x1FF : Word).toNat % 4096 < 0x200 + 2) ∧
    ¬ (0x200 ≤ (0x202 : Word).toNat % 4096 ∧ (0x202 : Word).toNat % 4096 < 0x200 + 2) := by
  simp only [List.length_replicate]; decide

end Sys2Proof.Tests
end

namespace Sys2Proof.Machine

/-! ## The instructions that branch on the state: one equation for each branch -/

theorem execRet_of_nil {s : State} (h : s.stack = []) : execRet s = s.raise .stackUnderflow := by
  rw [execRet, h]

theorem execRet_of_cons {s : State} {a : Word} {rest : List Word} (h : s.stack = a :: rest) :
    execRet s = .next { s with pc := a, stack := rest } := by
  unfold execRet
  split
  · next hnil => cases hnil.symm.trans h
  · next hcons => cases hcons.symm.trans h; rfl

theorem execCall_of_full {s : State} (nnn : Addr12) (h : s.stackFull = true) :
    execCall nnn s = s.raise .stackOverflow := if_pos h

theorem execCall_of_not_full {s : State} (nnn : Addr12) (h : ¬ s.stackFull = true) :
    execCall nnn s = .next ((s.push s.pc).setPc (zextAddr nnn)) := if_neg h

theorem execLdVxK_of_pressed {s : State} {k : Reg} (x : Reg) (h : s.firstPressed = some k) :
    execLdVxK x s = .next (s.writeV x (BitVec.ofNat 8 k)) := by
  rw [execLdVxK, h]

theorem execLdVxK_of_none {s : State} (x : Reg) (h : s.firstPressed = none) :
    execLdVxK x s = .next s.retreatPc := by
  rw [execLdVxK, h]

/-! ## O5: every transaction keeps the invariant

`State.Inv` reads four parts of the state: memory, the stack, its depth and the fault status. Most operations leave the
last three alone and keep memory canonical (`State.KeepsCore`); only the call and the return, the power-on and the reset
need an argument about the stack. -/

/-- What most operations do to the parts of the state that the invariant reads: the stack, its depth and the fault
status stand, and memory stays in its canonical form. -/
structure State.KeepsCore (s t : State) : Prop where
  /-- The stack stands. -/
  stack : t.stack = s.stack
  /-- Its depth stands. -/
  stackDepth : t.stackDepth = s.stackDepth
  /-- The fault status stands. -/
  fault : t.fault = s.fault
  /-- Canonical memory stays canonical. -/
  memory : Memory.wf s.mem → Memory.wf t.mem

theorem State.stackWithin_iff (s : State) :
    s.stackWithin = true ↔ ∀ d, s.stackDepth = some d → 0 < d ∧ s.stack.length ≤ d := by
  simp [State.stackWithin, Option.all_eq_true]

theorem State.stackFull_iff (s : State) : s.stackFull = true ↔ s.stackDepth = some s.stack.length := by
  simp [State.stackFull]

theorem State.halted_eq_false (s : State) : s.halted = false ↔ s.fault = .noFault := by
  simp [State.halted]

/-- A running core has no fault that could lack its cause. -/
theorem State.faultHasCause_of_noFault {s : State} (h : s.fault = .noFault) : s.faultHasCause = true := by
  simp [State.faultHasCause, h]

theorem State.Inv.of_keepsCore {s t : State} (hs : s.Inv) (h : s.KeepsCore t) : t.Inv where
  memory := h.memory hs.memory
  stack := by rw [State.stackWithin, h.stackDepth, h.stack]; exact hs.stack
  cause := by
    rw [State.faultHasCause, State.stackFull, h.fault, h.stackDepth, h.stack]; exact hs.cause

/-- The invariant of a running core whose stack has not grown. -/
theorem State.Inv.of_shorter_stack {s t : State} (hs : s.Inv) (hmem : Memory.wf t.mem) (hfault : t.fault = .noFault)
    (hdepth : t.stackDepth = s.stackDepth) (hlen : t.stack.length ≤ s.stack.length) : t.Inv where
  memory := hmem
  stack := (t.stackWithin_iff).mpr fun d hd => by
    obtain ⟨hpos, hle⟩ := (s.stackWithin_iff).mp hs.stack d (hdepth ▸ hd)
    exact ⟨hpos, hlen.trans hle⟩
  cause := State.faultHasCause_of_noFault hfault

/-! ### The instructions -/

theorem State.keepsCore_skipIf (s : State) (c : Bool) : s.KeepsCore (s.skipIf c) := by
  constructor <;> simp

theorem State.keepsCore_keySkip (s : State) (k : Byte) (c : Bool) : s.KeepsCore ((s.takeKeyDraw k).skipIf c) := by
  constructor <;> simp

theorem State.keepsCore_plotAll (s : State) (ps : List (Col × Row)) : s.KeepsCore (s.plotAll ps) := by
  rw [State.plotAll_frame]; exact ⟨rfl, rfl, rfl, id⟩

theorem State.keepsCore_storeRegs (s : State) (ks : List Reg) : s.KeepsCore (ks.foldl State.storeReg s) := by
  refine ⟨?_, ?_, ?_, storeRegs_wf ks⟩ <;> rw [storeRegs_frame]

theorem State.keepsCore_loadRegs (s : State) (ks : List Reg) : s.KeepsCore (ks.foldl State.loadReg s) := by
  rw [loadRegs_frame]; exact ⟨rfl, rfl, rfl, id⟩

/-- Every instruction but the call and the return answers a next state and leaves the stack and the fault status alone;
Fx33 and Fx55 are the ones that store to memory. -/
theorem exec_keepsCore (i : Instr) (s : State) (hret : i ≠ .ret) (hcall : ∀ nnn, i ≠ .call nnn) :
    ∃ t, exec i s = .next t ∧ s.KeepsCore t := by
  cases i with
  | ret => exact absurd rfl hret
  | call nnn => exact absurd rfl (hcall nnn)
  | seImm | sneImm | seReg | sneReg => exact ⟨_, rfl, s.keepsCore_skipIf _⟩
  | skp | sknp => exact ⟨_, rfl, s.keepsCore_keySkip _ _⟩
  | drw x y n =>
    obtain ⟨hstack, hdepth, hfault, hmem⟩ :=
      (s.writeV vf 0).keepsCore_plotAll (s.spritePixels (s.anchorCol x) (s.anchorRow y) n)
    exact ⟨_, rfl, hstack, hdepth, hfault, hmem⟩
  | ldVxK x =>
    cases hk : s.firstPressed with
    | some k => exact ⟨_, execLdVxK_of_pressed x hk, rfl, rfl, rfl, id⟩
    | none => exact ⟨_, execLdVxK_of_none x hk, rfl, rfl, rfl, id⟩
  | ldBVx x =>
    exact ⟨_, rfl, rfl, rfl, rfl, fun h => State.memWrite_wf (State.memWrite_wf (State.memWrite_wf h _ _) _ _) _ _⟩
  | ldMemVx x => exact ⟨_, rfl, s.keepsCore_storeRegs _⟩
  | ldVxMem x => exact ⟨_, rfl, s.keepsCore_loadRegs _⟩
  | _ => exact ⟨_, rfl, rfl, rfl, rfl, id⟩

/-- A return pops an address, or records the underflow of an empty stack (R150, R271). -/
theorem execRet_keeps_inv {s t : State} (hs : s.Inv) (hrun : s.fault = .noFault) (h : execRet s = .next t) : t.Inv := by
  cases hstack : s.stack with
  | nil =>
    cases (execRet_of_nil hstack).symm.trans h
    exact ⟨hs.memory, hs.stack, by simp [State.faultHasCause, hstack]⟩
  | cons a rest =>
    cases (execRet_of_cons hstack).symm.trans h
    exact hs.of_shorter_stack hs.memory hrun rfl (by simp [hstack])

/-- A call pushes onto a stack that is not full, or records the overflow of a full one (R152, R153, R272). -/
theorem execCall_keeps_inv {s t : State} {nnn : Addr12} (hs : s.Inv) (hrun : s.fault = .noFault)
    (h : execCall nnn s = .next t) : t.Inv := by
  by_cases hfull : s.stackFull = true
  · cases (execCall_of_full nnn hfull).symm.trans h
    exact ⟨hs.memory, hs.stack, hfull⟩
  · cases (execCall_of_not_full nnn hfull).symm.trans h
    refine ⟨hs.memory, (State.stackWithin_iff _).mpr fun d hd => ?_, State.faultHasCause_of_noFault hrun⟩
    obtain ⟨hpos, hle⟩ := (s.stackWithin_iff).mp hs.stack d hd
    have hne : s.stack.length ≠ d := fun e => hfull ((s.stackFull_iff).mpr (e ▸ hd))
    exact ⟨hpos, Nat.lt_of_le_of_ne hle hne⟩

theorem exec_keeps_inv {i : Instr} {s t : State} (hs : s.Inv) (hrun : s.fault = .noFault) (h : exec i s = .next t) :
    t.Inv := by
  by_cases hret : i = .ret
  · subst hret; exact execRet_keeps_inv hs hrun h
  by_cases hcall : ∃ nnn, i = .call nnn
  · obtain ⟨nnn, rfl⟩ := hcall; exact execCall_keeps_inv hs hrun h
  obtain ⟨t', ht', hkeeps⟩ := exec_keepsCore i s hret (not_exists.mp hcall)
  cases ht'.symm.trans h
  exact hs.of_keepsCore hkeeps

/-! ### The transactions -/

/-- A halted core's step changes nothing (R140); a running core's executes an instruction after the pre-increment. -/
theorem step_keeps_inv {s t : State} (hs : s.Inv) (h : step s = .next t) : t.Inv := by
  unfold step at h
  split at h
  · cases h; exact hs
  · next hrun =>
    have hfault : s.fault = .noFault := (s.halted_eq_false).mp (Bool.eq_false_of_not_eq_true hrun)
    exact exec_keeps_inv (hs.of_keepsCore (t := s.advancePc) ⟨rfl, rfl, rfl, id⟩) hfault h

theorem State.keepsCore_loadBytes (s : State) {base : Nat} {bs : List Byte}
    (hfit : base + bs.length ≤ Config.memSize) : s.KeepsCore (s.loadBytes base bs) := by
  refine ⟨?_, ?_, ?_, fun h => State.loadBytes_wf bs h base hfit⟩ <;> rw [State.loadBytes_frame]

/-- The font table ends at 0x09F, inside memory (R304). -/
theorem State.keepsCore_loadFont (s : State) (table : Vector Byte 80) : s.KeepsCore (s.loadFont table) :=
  s.keepsCore_loadBytes (by rw [Vector.length_toList]; decide)

/-- A program that does not fit is not loaded (R307, R308). -/
theorem State.keepsCore_loadProgram (s : State) (bytes : List Byte) : s.KeepsCore (s.loadProgram bytes) := by
  unfold State.loadProgram
  split
  · exact ⟨rfl, rfl, rfl, id⟩
  · next hfits => exact s.keepsCore_loadBytes (by simpa [romTooLarge] using hfits)

theorem State.keepsCore_stepTimers (s : State) : s.KeepsCore s.stepTimers := by
  unfold State.stepTimers
  split <;> exact ⟨rfl, rfl, rfl, id⟩

theorem State.Inv.powerOn {s : State} (hs : s.Inv) : s.powerOn.Inv :=
  hs.of_shorter_stack Memory.wf_nil rfl rfl (Nat.zero_le _)

theorem State.Inv.hostReset {s : State} (hs : s.Inv) : s.hostReset.Inv :=
  hs.of_shorter_stack hs.memory rfl rfl (Nat.zero_le _)

/-- Settles O5: each transaction keeps what the invariant reads, or empties the stack, or is a step. -/
theorem everyTransactionKeepsInvariant : Obligations.EveryTransactionKeepsInvariant := by
  intro tr s t hs h
  cases tr with
  | powerOn => cases h; exact hs.powerOn
  | reset => cases h; exact hs.hostReset
  | loadFont table => cases h; exact hs.of_keepsCore (s.keepsCore_loadFont table)
  | loadProgram bytes => cases h; exact hs.of_keepsCore (s.keepsCore_loadProgram bytes)
  | step => exact step_keeps_inv hs h
  | stepTimers => cases h; exact hs.of_keepsCore s.keepsCore_stepTimers
  | setKeys ks => cases h; exact hs.of_keepsCore ⟨rfl, rfl, rfl, id⟩
  | clearRedraw => cases h; exact hs.of_keepsCore ⟨rfl, rfl, rfl, id⟩

/-! ## O16: which instructions depend on a draw (R138)

`draws` is read by `State.drawByte` and `State.drawBool` alone. Each update that uses neither commutes with a change of
the counter; what an instruction built from such updates answers is then the same whatever the counter is. -/

/-- The state with another draw counter, that is with other draws to come (log entry 3). -/
def State.withDraws (s : State) (n : Nat) : State := { s with draws := n }

/-- The instruction answers a next state, takes no draw, and answers alike for every draw counter. -/
def DrawFree (i : Instr) (s : State) : Prop :=
  ∃ t, exec i s = .next t ∧ t.draws = s.draws ∧ ∀ n, exec i (s.withDraws n) = .next (t.withDraws n)

theorem State.withDraws_skipIf (s : State) (n : Nat) (c : Bool) :
    (s.withDraws n).skipIf c = (s.skipIf c).withDraws n := by
  cases c <;> rfl

theorem State.withDraws_plot (s : State) (n : Nat) (p : Col × Row) :
    (s.withDraws n).plot p = (s.plot p).withDraws n := by
  have hpixel : (s.withDraws n).pixel p.1 p.2 = s.pixel p.1 p.2 := rfl
  unfold State.plot
  rw [hpixel]
  split <;> rfl

theorem State.withDraws_plotAll (s : State) (n : Nat) (ps : List (Col × Row)) :
    (s.withDraws n).plotAll ps = (s.plotAll ps).withDraws n :=
  List.foldl_hom (State.withDraws · n) fun s p => s.withDraws_plot n p

theorem State.withDraws_storeRegs (s : State) (n : Nat) (ks : List Reg) :
    ks.foldl State.storeReg (s.withDraws n) = (ks.foldl State.storeReg s).withDraws n :=
  List.foldl_hom (State.withDraws · n) fun _ _ => rfl

theorem State.withDraws_loadRegs (s : State) (n : Nat) (ks : List Reg) :
    ks.foldl State.loadReg (s.withDraws n) = (ks.foldl State.loadReg s).withDraws n :=
  List.foldl_hom (State.withDraws · n) fun _ _ => rfl

/-- A key number below 16 names a key, which decides the test whatever the draw is (R162, R163). -/
theorem State.keyTest_of_lt (s : State) {k : Byte} (hk : k.toNat < 16) (draw : Bool) :
    s.keyTest k draw = s.keys[k.toNat] := dif_pos hk

theorem State.takeKeyDraw_of_lt (s : State) {k : Byte} (hk : k.toNat < 16) : s.takeKeyDraw k = s :=
  if_pos (decide_eq_true hk)

/-- One equation for every counter suffices: at the state's own counter it gives the answer and its counter. -/
theorem DrawFree.of_forall {i : Instr} {s : State} (t : State)
    (h : ∀ n, exec i (s.withDraws n) = .next (t.withDraws n)) : DrawFree i s :=
  ⟨t.withDraws s.draws, h s.draws, rfl, h⟩

/-- A key number below 16 names a key, so the draw is neither taken nor looked at (R138, R162, R164). -/
theorem drawFree_keySkip {s : State} {x : Reg} (hk : (s.readV x).toNat < 16) :
    DrawFree (.skp x) s ∧ DrawFree (.sknp x) s := by
  have hdraw : ∀ n, (s.withDraws n).takeKeyDraw (s.readV x) = s.withDraws n := fun _ => State.takeKeyDraw_of_lt _ hk
  have htest : ∀ n, (s.withDraws n).keyTest (s.readV x) (s.withDraws n).drawBool = s.keys[(s.readV x).toNat] :=
    fun _ => State.keyTest_of_lt _ hk _
  have hreg : ∀ n, (s.withDraws n).readV x = s.readV x := fun _ => rfl
  refine ⟨.of_forall (s.skipIf s.keys[(s.readV x).toNat]) fun n => ?_,
    .of_forall (s.skipIf !s.keys[(s.readV x).toNat]) fun n => ?_⟩
  · rw [exec, execSkp, hreg, hdraw, htest, State.withDraws_skipIf]
  · rw [exec, execSknp, hreg, hdraw, htest, State.withDraws_skipIf]

theorem drawFree_drw (x y : Reg) (h : Height) (s : State) : DrawFree (.drw x y h) s :=
  .of_forall ((s.writeV vf 0).plotAll (s.spritePixels (s.anchorCol x) (s.anchorRow y) h)).setRedraw fun n =>
    congrArg (fun u : State => (Host.Outcome.next u.setRedraw : Result)) ((s.writeV vf 0).withDraws_plotAll n _)

theorem drawFree_ret (s : State) : DrawFree .ret s := by
  cases hstack : s.stack with
  | nil => exact .of_forall { s with fault := .stackUnderflow } fun n => execRet_of_nil (s := s.withDraws n) hstack
  | cons a rest =>
    exact .of_forall { s with pc := a, stack := rest } fun n => execRet_of_cons (s := s.withDraws n) hstack

theorem drawFree_call (nnn : Addr12) (s : State) : DrawFree (.call nnn) s := by
  by_cases hfull : s.stackFull = true
  · exact .of_forall { s with fault := .stackOverflow } fun n => execCall_of_full (s := s.withDraws n) nnn hfull
  · exact .of_forall ((s.push s.pc).setPc (zextAddr nnn)) fun n =>
      execCall_of_not_full (s := s.withDraws n) nnn hfull

theorem drawFree_ldVxK (x : Reg) (s : State) : DrawFree (.ldVxK x) s := by
  cases hkey : s.firstPressed with
  | some k =>
    exact .of_forall (s.writeV x (BitVec.ofNat 8 k)) fun n => execLdVxK_of_pressed (s := s.withDraws n) x hkey
  | none => exact .of_forall s.retreatPc fun n => execLdVxK_of_none (s := s.withDraws n) x hkey

/-- Every instruction that takes no draw depends on none (R138). -/
theorem drawFree_of_takesDraw_eq_false {i : Instr} {s : State} (h : Spec.takesDraw s i = false) : DrawFree i s := by
  cases i with
  | rnd => exact absurd h.symm Bool.false_ne_true
  | skp x => exact (drawFree_keySkip (by simpa [Spec.takesDraw] using h)).1
  | sknp x => exact (drawFree_keySkip (by simpa [Spec.takesDraw] using h)).2
  | seImm | sneImm | seReg | sneReg =>
    exact ⟨_, rfl, s.skipIf_draws _, fun n => congrArg Host.Outcome.next (s.withDraws_skipIf n _)⟩
  | drw x y n => exact drawFree_drw x y n s
  | ldMemVx x => exact .of_forall _ fun n => congrArg Host.Outcome.next (s.withDraws_storeRegs n (regsUpTo x))
  | ldVxMem x => exact .of_forall _ fun n => congrArg Host.Outcome.next (s.withDraws_loadRegs n (regsUpTo x))
  | ret => exact drawFree_ret s
  | call nnn => exact drawFree_call nnn s
  | ldVxK x => exact drawFree_ldVxK x s
  | _ => exact ⟨_, rfl, rfl, fun _ => rfl⟩

/-- Cxnn, and a key skip whose number names no key, take exactly one draw (R138, R163). -/
theorem exec_draws_of_takesDraw {i : Instr} {s : State} (h : Spec.takesDraw s i = true) :
    ∃ t, exec i s = .next t ∧ t.draws = s.draws + 1 := by
  cases i with
  | rnd x nn => exact ⟨_, rfl, rfl⟩
  | skp x | sknp x =>
    have hk : namesKey (s.readV x) = false := by simpa [Spec.takesDraw, namesKey] using h
    exact ⟨_, rfl, by simp [hk]⟩
  | _ => exact absurd h Bool.false_ne_true

/-- Settles O16: an instruction that takes no draw is built from updates that commute with the draw counter. -/
theorem drawsAffectOnlyDrawingInstructions : Obligations.DrawsAffectOnlyDrawingInstructions :=
  fun _ _ => ⟨drawFree_of_takesDraw_eq_false, exec_draws_of_takesDraw⟩

/-! ## O38: the random byte -/

/-- An instruction whose word is written by the pattern `txnn` has the row of that nibble (R103, R104). -/
theorem hasPattern_of_wordXNN {i : Instr} {t : BitVec 4} {x : Reg} {nn : Byte} {pat : Word}
    (hdecode : Laws.DecodesBack.Statement i) (hwf : i.wellFormed = true) (hword : encode i = wordXNN t x nn)
    (hpat : pat.toNat = t.toNat * 4096) : Spec.HasPattern pat 0xF000 i := by
  refine ⟨BitVec.eq_of_toNat_eq ?_, hdecode hwf⟩
  rw [hword, hpat]
  exact mask_wordXNN t x nn

/-- Settles O38: the draw's byte ANDed with nn is written to `V[x]` alone. -/
theorem randomByteIsMasked : Obligations.RandomByteIsMasked := by
  intro s x nn
  refine ⟨hasPattern_of_wordXNN (Laws.DecodesBack.rnd x nn) rfl rfl rfl, _, rfl, fun b => ?_, fun r hr => ?_, rfl⟩
  · rw [State.loadRandom, State.writeV_readV, if_pos rfl, BitVec.getLsbD_and, State.drawByte]
  · rw [State.loadRandom, State.writeV_readV, if_neg hr, State.takeDraw_readV]

end Sys2Proof.Machine

namespace Sys2Proof.Machine

/-! ## O4: every step keeps the invariant -/

/-- Settles O4: the step case of the transactions' invariant. -/
theorem stepKeepsInvariant : Obligations.StepKeepsInvariant := fun _ _ => step_keeps_inv

/-! ## The two cases of a step (R130, R140) -/

theorem State.halted_of_fault {s : State} (h : s.fault ≠ .noFault) : s.halted = true := by
  simpa [State.halted] using h

theorem step_of_halted {s : State} (h : s.halted = true) : step s = .next s := if_pos h

theorem step_of_running {s : State} (h : ¬ s.halted = true) :
    step s = exec (decodeWord s.fetchWord) s.advancePc := if_neg h

theorem State.stepTimers_of_halted {s : State} (h : s.halted = true) : s.stepTimers = s := if_pos h

/-! ## O11: a fault stands until a reset

On a halted core the step and the timer step do nothing, so what is left to the transactions but the power-on and the
reset is to load memory and to set the two host ports. -/

theorem State.loadProgram_frame (s : State) (bytes : List Byte) :
    s.loadProgram bytes = { s with mem := (s.loadProgram bytes).mem } := by
  unfold State.loadProgram
  split
  · rfl
  · exact State.loadBytes_frame ..

/-- A transaction on a halted core, neither a power-on nor a reset, changes at most memory, the keys and the redraw
flag. -/
theorem Transaction.run_frame_of_halted {tr : Transaction} {s t : State} (hs : s.halted = true)
    (hpower : tr ≠ .powerOn) (hreset : tr ≠ .reset) (h : tr.run s = .next t) :
    t = { s with mem := t.mem, keys := t.keys, redraw := t.redraw } := by
  cases tr with
  | powerOn => exact absurd rfl hpower
  | reset => exact absurd rfl hreset
  | loadFont table => cases h; rw [State.loadFont, State.loadBytes_frame]
  | loadProgram bytes => cases h; rw [State.loadProgram_frame]
  | step => cases (step_of_halted hs).symm.trans h; rfl
  | stepTimers => cases h; rw [State.stepTimers_of_halted hs]
  | setKeys ks => cases h; rfl
  | clearRedraw => cases h; rfl

/-- Settles O11: the fault and the machine's registers lie outside what a halted core's transactions change. -/
theorem faultIsStickyUntilReset : Obligations.FaultIsStickyUntilReset := by
  intro tr s t hfault hpower hreset h
  rw [Transaction.run_frame_of_halted (State.halted_of_fault hfault) hpower hreset h]
  exact ⟨rfl, rfl, rfl, rfl, rfl, rfl, rfl⟩

/-! ## The frames of the instructions that branch or loop -/

theorem execRet_frame {s t : State} (h : execRet s = .next t) :
    t = { s with pc := t.pc, stack := t.stack, fault := t.fault } := by
  cases hstack : s.stack with
  | nil => cases (execRet_of_nil hstack).symm.trans h; rfl
  | cons a rest => cases (execRet_of_cons hstack).symm.trans h; rfl

theorem execCall_frame {s t : State} {nnn : Addr12} (h : execCall nnn s = .next t) :
    t = { s with pc := t.pc, stack := t.stack, fault := t.fault } := by
  by_cases hfull : s.stackFull = true
  · cases (execCall_of_full nnn hfull).symm.trans h; rfl
  · cases (execCall_of_not_full nnn hfull).symm.trans h; rfl

theorem execLdVxK_frame {s t : State} {x : Reg} (h : execLdVxK x s = .next t) :
    t = { s with v := t.v, pc := t.pc } := by
  cases hkey : s.firstPressed with
  | some k => cases (execLdVxK_of_pressed x hkey).symm.trans h; rfl
  | none => cases (execLdVxK_of_none x hkey).symm.trans h; rfl

theorem execDrw_frame {s t : State} {x y : Reg} {n : Height} (h : execDrw x y n s = .next t) :
    t = { s with v := t.v, fb := t.fb, redraw := true } := by
  cases h
  rw [State.plotAll_frame]
  rfl

/-! ## O13: which general registers an instruction writes (R33) -/

theorem State.writeV_readV_of_ne (s : State) {r q : Reg} (b : Byte) (h : q ≠ r) :
    (s.writeV r b).readV q = s.readV q := by
  rw [State.writeV_readV, if_neg h]

/-- A draw writes no register but `VF` (R236). -/
theorem execDrw_readV_of_ne {s t : State} {x y : Reg} {n : Height} {q : Reg} (hq : q ≠ vf)
    (h : execDrw x y n s = .next t) : t.readV q = s.readV q := by
  cases h
  rw [State.setRedraw_readV, State.plotAll_readV (s.spritePixels_nodup _ _ _ (by omega)), if_neg (hq ·.1),
    State.writeV_readV_of_ne s _ hq]

/-- The key wait writes no register but `V[x]` (R253). -/
theorem execLdVxK_readV_of_ne {s t : State} {x q : Reg} (hq : q ≠ x) (h : execLdVxK x s = .next t) :
    t.readV q = s.readV q := by
  cases hkey : s.firstPressed with
  | some k => cases (execLdVxK_of_pressed x hkey).symm.trans h; exact s.writeV_readV_of_ne _ hq
  | none => cases (execLdVxK_of_none x hkey).symm.trans h; rfl

/-- Settles O13: each writer writes through `State.writeV` at its listed registers, and the others write no register. -/
theorem onlyListedRegistersWritten : Obligations.OnlyListedRegistersWritten := by
  intro i s t r h hr
  cases i with
  | ldImm x | addImm x | ldReg x | orReg x | andReg x | xorReg x | rnd x | ldVxDt x =>
    cases h
    exact State.writeV_readV_of_ne _ _ (mt List.mem_singleton.mpr hr)
  | addReg x | subReg x | subn x =>
    obtain ⟨hx, hvf⟩ : r ≠ x ∧ r ≠ vf := by simpa [Spec.writesV] using hr
    cases h
    rw [State.writeResultThenFlag_readV, if_neg hvf, if_neg hx]
  | shr x | shl x =>
    obtain ⟨hx, hvf⟩ : r ≠ x ∧ r ≠ vf := by simpa [Spec.writesV] using hr
    cases h
    rw [State.writeV_readV_of_ne _ _ hx, State.writeV_readV_of_ne _ _ hvf]
  | drw => exact execDrw_readV_of_ne (mt List.mem_singleton.mpr hr) h
  | ldVxK => exact execLdVxK_readV_of_ne (mt List.mem_singleton.mpr hr) h
  | ldVxMem x => cases h; rw [loadRegs_readV]; exact if_neg hr
  | seImm | sneImm | seReg | sneReg => cases h; exact s.skipIf_readV _ _
  | skp | sknp => cases h; rw [State.skipIf_readV, State.takeKeyDraw_readV]
  | ldMemVx => cases h; rw [storeRegs_frame]; rfl
  | ret => rw [execRet_frame h]; rfl
  | call => rw [execCall_frame h]; rfl
  | _ => cases h; rfl

/-! ## O14: which parts of the state an instruction writes (R137) -/

/-- Every part of the state outside `ps`, and the key state, stands (R59). -/
structure State.AgreesOutside (ps : List Spec.Part) (s t : State) : Prop where
  /-- The index register. -/
  index : .index ∉ ps → t.i = s.i
  /-- The call stack. -/
  stack : .stack ∉ ps → t.stack = s.stack
  /-- The delay timer. -/
  dt : .dt ∉ ps → t.dt = s.dt
  /-- The sound timer. -/
  st : .st ∉ ps → t.st = s.st
  /-- The framebuffer. -/
  fb : .fb ∉ ps → t.fb = s.fb
  /-- The redraw flag. -/
  redraw : .redraw ∉ ps → t.redraw = s.redraw
  /-- The fault status. -/
  fault : .fault ∉ ps → t.fault = s.fault
  /-- Memory. -/
  memory : .memory ∉ ps → t.mem = s.mem
  /-- The key state, which no instruction writes. -/
  keys : t.keys = s.keys

/-- The frame of every instruction: where it branches or loops, its frame equation says what it writes; the others are
a few updates, each with its own laws. -/
theorem exec_agreesOutside {i : Instr} {s t : State} (h : exec i s = .next t) :
    State.AgreesOutside (Spec.writes i) s t := by
  cases i with
  | ret => rw [execRet_frame h]; constructor <;> simp [Spec.writes]
  | call => rw [execCall_frame h]; constructor <;> simp [Spec.writes]
  | drw => rw [execDrw_frame h]; constructor <;> simp [Spec.writes]
  | ldVxK => rw [execLdVxK_frame h]; constructor <;> simp [Spec.writes]
  | ldMemVx => cases h; rw [storeRegs_frame]; constructor <;> simp [Spec.writes]
  | ldVxMem => cases h; rw [loadRegs_frame]; constructor <;> simp [Spec.writes]
  | _ => cases h; constructor <;> simp [Spec.writes]

theorem State.pixel_congr {s t : State} (h : t.fb = s.fb) (c : Col) (r : Row) : t.pixel c r = s.pixel c r := by
  rw [State.pixel, h, State.pixel]

theorem State.memRead_congr {s t : State} (h : t.mem = s.mem) (a : Word) : t.memRead a = s.memRead a := by
  rw [State.memRead, h, State.memRead]

/-- Settles O14: the frame of every instruction, with the pixels and the bytes read from the standing data. -/
theorem onlyListedStateWritten : Obligations.OnlyListedStateWritten := by
  intro i s t h
  obtain ⟨index, stack, dt, st, fb, redraw, fault, memory, keys⟩ := exec_agreesOutside h
  exact ⟨index, stack, dt, st, fun hp => State.pixel_congr (fb hp), redraw, fault,
    fun hp => State.memRead_congr (memory hp), keys⟩

/-! ## O17: the redraw flag (R48) -/

theorem redraw_mem_writes_iff (i : Instr) : .redraw ∈ Spec.writes i ↔ i = .cls ∨ ∃ x y n, i = .drw x y n := by
  cases i <;> simp [Spec.writes]

/-- Both instructions that write the redraw flag set it (R230, R237). -/
theorem exec_redraw_of_mem_writes {i : Instr} {s t : State} (hi : .redraw ∈ Spec.writes i) (h : exec i s = .next t) :
    t.redraw = true := by
  obtain rfl | ⟨x, y, n, rfl⟩ := (redraw_mem_writes_iff i).mp hi
  · cases h; rfl
  · cases h; rfl

/-- Settles O17: an instruction that writes the redraw flag sets it, and any other leaves it. -/
theorem redrawChangedOnlyByDisplayInstructions : Obligations.RedrawChangedOnlyByDisplayInstructions := by
  intro s t h
  by_cases hs : s.halted = true
  · cases (step_of_halted hs).symm.trans h
    exact ⟨id, fun _ _ => rfl⟩
  rw [step_of_running hs] at h
  have hstands := (exec_agreesOutside h).redraw
  refine ⟨fun hset => ?_, fun hcls hdrw => hstands fun hi => ?_⟩
  · by_cases hi : .redraw ∈ Spec.writes (decodeWord s.fetchWord)
    · exact exec_redraw_of_mem_writes hi h
    · exact (hstands hi).trans hset
  · obtain hi | ⟨x, y, n, hi⟩ := (redraw_mem_writes_iff _).mp hi
    · exact hcls hi
    · exact hdrw x y n hi

/-! ## O18: canonical memories that read alike -/

/-- An address that memory does not list reads as unlisted. -/
theorem Memory.read_of_absent {m : Memory} {a : Nat} (h : ∀ c ∈ m, c.1 ≠ a) : m.read a = Memory.unlisted := by
  induction m with
  | nil => rfl
  | cons cell rest ih =>
    obtain ⟨k, b⟩ := cell
    obtain ⟨hk, hrest⟩ := List.forall_mem_cons.mp h
    rw [Memory.read, if_neg hk, ih hrest]

/-- A listed cell reads as its byte, its address being listed once. -/
theorem Memory.read_of_mem {m : Memory} (hm : m.Pairwise (fun c d => c.1 < d.1)) {c : Host.Cell} (hc : c ∈ m) :
    m.read c.1 = c.2 := by
  induction m with
  | nil => cases hc
  | cons cell rest ih =>
    obtain ⟨k, b⟩ := cell
    obtain ⟨hlt, hrest⟩ := List.pairwise_cons.mp hm
    obtain rfl | hc := List.mem_cons.mp hc
    · exact if_pos rfl
    · rw [Memory.read, if_neg (hlt c hc).ne, ih hrest hc]

/-- The cells of a canonical memory are what it reads as, wherever that is not the unlisted byte. -/
theorem Memory.mem_iff_read {m : Memory} (hm : m.wf) (c : Host.Cell) :
    c ∈ m ↔ c.2 ≠ Memory.unlisted ∧ m.read c.1 = c.2 := by
  obtain ⟨hsorted, hcells⟩ := hm
  refine ⟨fun hc => ⟨(hcells c hc).2, Memory.read_of_mem hsorted hc⟩, fun ⟨hne, hread⟩ => ?_⟩
  by_contra hc
  refine hne (hread.symm.trans (Memory.read_of_absent fun d hd hda => hc ?_))
  have hdc : d = c := Prod.ext hda ((Memory.read_of_mem hsorted hd).symm.trans (hda ▸ hread))
  exact hdc ▸ hd

/-- Settles O18: the reads determine the cells, and the rising addresses their order. -/
theorem memoriesThatReadAlikeAreEqual : Obligations.MemoriesThatReadAlikeAreEqual := by
  intro m m' hm hm' hread
  have hcells : ∀ c, c ∈ m ↔ c ∈ m' := fun c => by
    rw [Memory.mem_iff_read hm, Memory.mem_iff_read hm', hread]
  have : Std.Antisymm fun c d : Host.Cell => c.1 < d.1 := ⟨fun _ _ h h' => absurd h h'.asymm⟩
  have : Std.Irrefl fun c d : Host.Cell => c.1 < d.1 := ⟨fun c => lt_irrefl c.1⟩
  exact hm.1.eq_of_mem_iff hm'.1 hcells

/-! ## O1 and O3: the power-on state (R61, R300) -/

theorem State.reset_readV (r : Reg) : State.reset.readV r = 0 := Vector.getElem_replicate r.isLt

theorem State.reset_keys (k : Reg) : State.reset.keys[k] = false := Vector.getElem_replicate k.isLt

/-- Settles O1: the fields of the power-on state, and a power-on as one state. -/
theorem powerOnStateIsZeroed : Obligations.PowerOnStateIsZeroed :=
  ⟨State.reset_readV, rfl, rfl, rfl, rfl, rfl, Framebuffer.off_getElem, State.reset_keys, rfl,
    fun a => Memory.read_nil (physical a), rfl, fun _ => rfl⟩

/-- Settles O3: memory lists nothing, the stack is empty and unbounded, and no fault is recorded. -/
theorem resetSatisfiesInvariant : Obligations.ResetSatisfiesInvariant where
  memory := Memory.wf_nil
  stack := (State.stackWithin_iff _).mpr nofun
  cause := State.faultHasCause_of_noFault rfl

/-! ## O57: the ports of the host -/

/-- The sound is active while `ST` is not 0 (R58). -/
theorem State.soundActive_iff (s : State) : s.soundActive = true ↔ s.st ≠ 0 := by
  rw [State.soundActive, decide_eq_true_iff, gt_iff_lt, Nat.pos_iff_ne_zero]
  exact not_congr (BitVec.toNat_inj (y := 0))

/-- The code of each fault status (R274). -/
theorem State.faultCode_iff (s : State) : (s.fault = .noFault ↔ s.faultCode = 0) ∧
    (s.fault = .stackUnderflow ↔ s.faultCode = 1) ∧ (s.fault = .stackOverflow ↔ s.faultCode = 2) := by
  cases h : s.fault <;> simp [State.faultCode, h]

/-- Settles O57: each port writes or reads one field. -/
theorem hostPorts : Obligations.HostPorts :=
  fun s _ => ⟨rfl, rfl, s.soundActive_iff, fun _ _ => rfl, s.faultCode_iff⟩

end Sys2Proof.Machine

namespace Sys2Proof

/-! ## O19: decoding is the inverse of encoding (R103, R104) -/

open Laws.DecodesBack in
/-- The decoding laws of the single instructions as one, in the order of the opcode map. -/
theorem decodeWord_encode : ∀ i : Instr, i.wellFormed = true → decodeWord (encode i) = i
  | .cls => cls
  | .ret => ret
  | .jp nnn => jp nnn
  | .call nnn => call nnn
  | .seImm x nn => seImm x nn
  | .sneImm x nn => sneImm x nn
  | .seReg x y => seReg x y
  | .ldImm x nn => ldImm x nn
  | .addImm x nn => addImm x nn
  | .ldReg x y => ldReg x y
  | .orReg x y => orReg x y
  | .andReg x y => andReg x y
  | .xorReg x y => xorReg x y
  | .addReg x y => addReg x y
  | .subReg x y => subReg x y
  | .shr x y => shr x y
  | .subn x y => subn x y
  | .shl x y => shl x y
  | .sneReg x y => sneReg x y
  | .ldI nnn => ldI nnn
  | .jpV0 nnn => jpV0 nnn
  | .rnd x nn => rnd x nn
  | .drw x y n => drw x y n
  | .skp x => skp x
  | .sknp x => sknp x
  | .ldVxDt x => ldVxDt x
  | .ldVxK x => ldVxK x
  | .ldDtVx x => ldDtVx x
  | .ldStVx x => ldStVx x
  | .addIVx x => addIVx x
  | .ldFVx x => ldFVx x
  | .ldBVx x => ldBVx x
  | .ldMemVx x => ldMemVx x
  | .ldVxMem x => ldVxMem x
  | .dw w => dw w

/-- The two bytes of a word, high byte first, decode to the word's instruction (R76, R100). -/
theorem decodeBytes_high_low (w : Word) (rest : List Byte) :
    decodeBytes (highByte w :: lowByte w :: rest) = .ok (decodeWord w, rest) := by
  rw [decodeBytes, concatBytes_high_low]

theorem decodeTableWord_eq (nbits w : Nat) :
    decodeTableWord nbits w = some (decodeWord (BitVec.ofNat 16 (w % 2 ^ nbits))) := by
  rw [decodeTableWord, tableWordBytes, decodeBytes_high_low]

/-- Settles O19: each instruction's word decodes to it, and the word's two bytes are that word. -/
theorem decodeOfEncodeIsInstruction : Obligations.DecodeOfEncodeIsInstruction := by
  intro i rest hwf
  have hword : decodeWord (encode i) = i := decodeWord_encode i hwf
  exact ⟨hword, by rw [decodeBytes_high_low, hword]⟩

end Sys2Proof

namespace Sys2Proof.Machine

/-! ## O8: a word placed at the program counter is the next instruction -/

/-- Neighbouring addresses stay apart when reduced modulo 4096 (R74). -/
theorem physical_add_one_ne (a : Word) : physical a ≠ physical (a + 1) := by
  have hlt := a.isLt
  simp only [physical, Config.memSize, BitVec.toNat_add, BitVec.reduceToNat]
  omega

/-- A placed word overwrites no byte of itself, so a fetch reads it back (R76, R131). -/
theorem State.placeWord_fetchWord (s : State) (op : Word) : (s.placeWord op).fetchWord = op := by
  have hread (a : Word) : (s.placeWord op).memRead a =
      ((s.memWrite s.pc (highByte op)).memWrite (s.pc + 1) (lowByte op)).memRead a := rfl
  have hpc : (s.placeWord op).pc = s.pc := rfl
  rw [State.fetchWord, hpc, hread, hread, State.memWrite_memRead, State.memWrite_memRead, State.memWrite_memRead,
    if_neg (physical_add_one_ne s.pc), if_pos rfl, if_pos rfl, concatBytes_high_low]

/-- Settles O8: the core runs after the placing, and the word it fetches is the placed one. -/
theorem placedWordIsNextInstruction : Obligations.PlacedWordIsNextInstruction := by
  intro s nbits w i h
  cases (decodeTableWord_eq nbits w).symm.trans h
  have hrun : ¬ (s.withFetchWord nbits w).halted = true := Bool.false_ne_true
  rw [step_of_running hrun, State.withFetchWord, State.placeWord_fetchWord]

/-! ## O15: which bytes of memory an instruction stores to (R71) -/

theorem execLdBVx_memRead_of_not_stored {s t : State} {x : Reg} {a : Word}
    (ha : physical a ∉ Spec.storedAt s (.ldBVx x)) (h : execLdBVx x s = .next t) : t.memRead a = s.memRead a := by
  obtain ⟨h0, h1, h2⟩ : physical a ≠ physical (s.indexAddr 0) ∧ physical a ≠ physical (s.indexAddr 1) ∧
      physical a ≠ physical (s.indexAddr 2) := by simpa [Spec.storedAt] using ha
  cases h
  rw [State.memWrite_memRead, if_neg h2, State.memWrite_memRead, if_neg h1, State.memWrite_memRead, if_neg h0]

theorem execLdMemVx_memRead_of_not_stored {s t : State} {x : Reg} {a : Word}
    (ha : physical a ∉ Spec.storedAt s (.ldMemVx x)) (h : execLdMemVx x s = .next t) : t.memRead a = s.memRead a := by
  cases h
  refine (storeRegs_memRead (regsUpTo_nodup x) s a).2 fun k hk hak => ha ?_
  have hkx : k ≤ x := (mem_regsUpTo x k).mp hk
  exact List.mem_map.mpr ⟨k, List.mem_range.mpr (Nat.lt_succ_of_le hkx), hak.symm⟩

/-- Settles O15: Fx33 and Fx55 store at their listed addresses, and no other instruction writes memory. -/
theorem onlyStoredBytesChange : Obligations.OnlyStoredBytesChange := by
  intro i s t a h ha
  cases i with
  | ldBVx x => exact execLdBVx_memRead_of_not_stored ha h
  | ldMemVx x => exact execLdMemVx_memRead_of_not_stored ha h
  | _ => exact State.memRead_congr ((exec_agreesOutside h).memory (by simp [Spec.writes])) a

/-! ## O41: the decimal digits -/

/-- An instruction whose word is written by the pattern `txnn` has the row of that nibble and that byte (R103, R104). -/
theorem hasPattern_of_wordXNN_low {i : Instr} {t : BitVec 4} {x : Reg} {nn : Byte} {pat : Word}
    (hwf : i.wellFormed = true) (hword : encode i = wordXNN t x nn) (hpat : pat.toNat = t.toNat * 4096 + nn.toNat) :
    Spec.HasPattern pat 0xF0FF i := by
  refine ⟨BitVec.eq_of_toNat_eq ?_, decodeWord_encode i hwf⟩
  rw [hword, hpat]
  exact mask_wordXNN_low t x nn

theorem hundreds_toNat (b : Byte) : (hundreds b).toNat = b.toNat / 100 :=
  Nat.mod_eq_of_lt (by omega)

theorem tens_toNat (b : Byte) : (tens b).toNat = b.toNat / 10 % 10 :=
  Nat.mod_eq_of_lt (by omega)

theorem ones_toNat (b : Byte) : (ones b).toNat = b.toNat % 10 :=
  Nat.mod_eq_of_lt (by omega)

/-- The three stores of Fx33 are at distinct addresses, so each digit stands (R216). -/
theorem execLdBVx_memRead {s t : State} {x : Reg} (h : execLdBVx x s = .next t) :
    t.memRead (s.indexAddr 0) = hundreds (s.readV x) ∧ t.memRead (s.indexAddr 1) = tens (s.readV x) ∧
    t.memRead (s.indexAddr 2) = ones (s.readV x) := by
  have hne {k k' : Nat} (hk : k < 3) (hk' : k' < 3) (hkk : k ≠ k') :
      physical (s.indexAddr k) ≠ physical (s.indexAddr k') :=
    mt (physical_indexAddr_inj s (by omega) (by omega)) hkk
  cases h
  simp [hne]

/-- Settles O41: each digit is what its own store wrote, and the rest is the frame of O15 and of a store. -/
theorem decimalDigitsAreStored : Obligations.DecimalDigitsAreStored := by
  intro s x
  obtain ⟨h0, h1, h2⟩ := execLdBVx_memRead (s := s) (x := x) rfl
  refine ⟨hasPattern_of_wordXNN_low rfl rfl rfl, _, rfl, ?_, ?_, ?_,
    fun a => onlyStoredBytesChange (.ldBVx x) s _ a rfl, rfl⟩
  · rw [h0, hundreds_toNat]
  · rw [h1, tens_toNat]
  · rw [h2, ones_toNat]

/-! ## O42 to O45: the transfers between registers and memory -/

/-- The byte at the address of a stored register is that register (R218). -/
theorem execLdMemVx_memRead {s t : State} {x k : Reg} (hk : k ≤ x) (h : execLdMemVx x s = .next t) :
    t.memRead (s.indexAddr k) = s.readV k := by
  cases h
  exact (storeRegs_memRead (regsUpTo_nodup x) s _).1 k ((mem_regsUpTo x k).mpr hk) rfl

/-- A register after Fx65: the byte at its address up to `V[x]`, its old value above (R220). -/
theorem execLdVxMem_readV {s t : State} {x : Reg} (k : Reg) (h : execLdVxMem x s = .next t) :
    t.readV k = if k ≤ x then s.memRead (s.indexAddr k) else s.readV k := by
  cases h
  simp only [loadRegs_readV, mem_regsUpTo]

/-- Settles O42: the stored registers are read back, and the rest is the frame of O15 and of the stores. -/
theorem registersAreStored : Obligations.RegistersAreStored := fun s x =>
  ⟨hasPattern_of_wordXNN_low rfl rfl rfl, _, rfl, fun _ hk => execLdMemVx_memRead hk rfl,
    fun a => onlyStoredBytesChange (.ldMemVx x) s _ a rfl, storeRegs_frame _ s⟩

/-- Settles O43: the registers up to `V[x]` are the bytes at their addresses, and no other is loaded. -/
theorem registersAreLoaded : Obligations.RegistersAreLoaded := fun s _ =>
  ⟨hasPattern_of_wordXNN_low rfl rfl rfl, _, rfl, fun k hk => (execLdVxMem_readV k rfl).trans (if_pos hk),
    fun k hk => (execLdVxMem_readV k rfl).trans (if_neg (not_le_of_gt hk)), loadRegs_frame _ s⟩

/-- Settles O44: Fx65 loads `V[k]` from the address Fx55 stored it to. -/
theorem storeThenLoadRestoresRegisters : Obligations.StoreThenLoadRestoresRegisters := by
  intro s t u _ h hmem hi
  refine ⟨_, rfl, fun k hk => ?_⟩
  have haddr : u.indexAddr k = s.indexAddr k := by rw [State.indexAddr, hi, State.indexAddr]
  rw [execLdVxMem_readV k rfl, if_pos hk, haddr, State.memRead_congr hmem]
  exact execLdMemVx_memRead hk h

theorem State.indexAddr_add_one (s : State) (k : Nat) : s.indexAddr k + 1 = s.indexAddr (k + 1) := by
  rw [State.indexAddr, State.indexAddr, BitVec.ofNat_add]
  exact BitVec.add_assoc ..

/-- Settles O45: the address after that of `V[k]` is that of `V[k + 1]`, and a fetch reads both from memory. -/
theorem storedBytesAreFetched : Obligations.StoredBytesAreFetched := by
  intro s t x k k' h hkk' hk'
  have hk : k ≤ x := le_trans (Fin.le_def.mpr (by omega)) hk'
  rw [State.fetchWord, toNat_concatBytes, State.setPc_memRead, State.setPc_memRead, State.setPc_pc,
    State.indexAddr_add_one, hkk', execLdMemVx_memRead hk h, execLdMemVx_memRead hk' h]

end Sys2Proof.Machine

namespace Sys2Proof

/-! ## O20 and O21: the decoder and the opcode map

A word that matches a row of the map is the word of that row's instruction with the operands of the word's own fields.
Decoding is the inverse of encoding (`decodeWord_encode`), so that instruction is what the word decodes to; a word of no
row decodes to the data word. -/

theorem OpcodeRow.selects_iff (r : OpcodeRow) (w : Word) : r.selects w = true ↔ w &&& r.mask = r.pat := beq_iff_eq

theorem recognized_iff_exists_row (w : Word) :
    recognized w = true ↔ ∃ (k : Nat) (row : OpcodeRow), opcodeTable[k]? = some row ∧ row.selects w = true := by
  simp only [recognized, List.any_eq_true, List.mem_iff_getElem?]
  exact ⟨fun ⟨row, ⟨k, hk⟩, h⟩ => ⟨k, row, hk, h⟩, fun ⟨k, row, hk, h⟩ => ⟨row, ⟨k, hk⟩, h⟩⟩

/-- A word that matches a row of mask F000 has the row's top nibble. -/
theorem fieldT_of_selects {w pat : Word} {t : BitVec 4} (hpat : pat.toNat = t.toNat * 4096)
    (h : (OpcodeRow.mk pat 0xF000).selects w = true) : fieldT w = t.toNat := by
  rw [selects_F000] at h
  rw [fieldT_eq]
  omega

/-- A word that matches a row of mask F00F is the row's word with the word's own registers. -/
theorem wordXYN_of_selects {w pat : Word} {t n : BitVec 4} (hpat : pat.toNat = t.toNat * 4096 + n.toNat)
    (h : (OpcodeRow.mk pat 0xF00F).selects w = true) : wordXYN t (fieldX w) (fieldY w) n = w := by
  rw [selects_F00F] at h
  have hn : n.toNat < 16 := n.isLt
  exact wordXYN_fields w t n (by rw [fieldT_eq]; omega) (by rw [fieldN_val]; omega)

/-- A word that matches a row of mask F0FF is the row's word with the word's own register. -/
theorem wordXNN_of_selects {w pat : Word} {t : BitVec 4} {nn : Byte} (hpat : pat.toNat = t.toNat * 4096 + nn.toNat)
    (h : (OpcodeRow.mk pat 0xF0FF).selects w = true) : wordXNN t (fieldX w) nn = w := by
  rw [selects_F0FF] at h
  have hnn : nn.toNat < 256 := nn.isLt
  exact wordXNN_fields w t nn (by rw [fieldT_eq]; omega) (by rw [fieldNN_toNat]; omega)

/-- A word that matches a row is the word of an instruction of that row, its operands the fields of the word; in the
order of the opcode map (R101, R104). -/
theorem exists_encode_eq_of_selects {w : Word} : ∀ {k : Nat} {row : OpcodeRow}, opcodeTable[k]? = some row →
    row.selects w = true → ∃ i : Instr, i.tableRow = k ∧ encode i = w
  | 0, _, rfl, h => ⟨.cls, rfl, ((selects_FFFF _ w).mp h).symm⟩
  | 1, _, rfl, h => ⟨.ret, rfl, ((selects_FFFF _ w).mp h).symm⟩
  | 2, _, rfl, h => ⟨.jp (fieldNNN w), rfl, wordNNN_fields w 0x1 (fieldT_of_selects rfl h)⟩
  | 3, _, rfl, h => ⟨.call (fieldNNN w), rfl, wordNNN_fields w 0x2 (fieldT_of_selects rfl h)⟩
  | 4, _, rfl, h => ⟨.seImm (fieldX w) (fieldNN w), rfl, wordXNN_fields w 0x3 _ (fieldT_of_selects rfl h) rfl⟩
  | 5, _, rfl, h => ⟨.sneImm (fieldX w) (fieldNN w), rfl, wordXNN_fields w 0x4 _ (fieldT_of_selects rfl h) rfl⟩
  | 6, _, rfl, h => ⟨.seReg (fieldX w) (fieldY w), rfl, wordXYN_of_selects rfl h⟩
  | 7, _, rfl, h => ⟨.ldImm (fieldX w) (fieldNN w), rfl, wordXNN_fields w 0x6 _ (fieldT_of_selects rfl h) rfl⟩
  | 8, _, rfl, h => ⟨.addImm (fieldX w) (fieldNN w), rfl, wordXNN_fields w 0x7 _ (fieldT_of_selects rfl h) rfl⟩
  | 9, _, rfl, h => ⟨.ldReg (fieldX w) (fieldY w), rfl, wordXYN_of_selects rfl h⟩
  | 10, _, rfl, h => ⟨.orReg (fieldX w) (fieldY w), rfl, wordXYN_of_selects rfl h⟩
  | 11, _, rfl, h => ⟨.andReg (fieldX w) (fieldY w), rfl, wordXYN_of_selects rfl h⟩
  | 12, _, rfl, h => ⟨.xorReg (fieldX w) (fieldY w), rfl, wordXYN_of_selects rfl h⟩
  | 13, _, rfl, h => ⟨.addReg (fieldX w) (fieldY w), rfl, wordXYN_of_selects rfl h⟩
  | 14, _, rfl, h => ⟨.subReg (fieldX w) (fieldY w), rfl, wordXYN_of_selects rfl h⟩
  | 15, _, rfl, h => ⟨.shr (fieldX w) (fieldY w), rfl, wordXYN_of_selects rfl h⟩
  | 16, _, rfl, h => ⟨.subn (fieldX w) (fieldY w), rfl, wordXYN_of_selects rfl h⟩
  | 17, _, rfl, h => ⟨.shl (fieldX w) (fieldY w), rfl, wordXYN_of_selects rfl h⟩
  | 18, _, rfl, h => ⟨.sneReg (fieldX w) (fieldY w), rfl, wordXYN_of_selects rfl h⟩
  | 19, _, rfl, h => ⟨.ldI (fieldNNN w), rfl, wordNNN_fields w 0xA (fieldT_of_selects rfl h)⟩
  | 20, _, rfl, h => ⟨.jpV0 (fieldNNN w), rfl, wordNNN_fields w 0xB (fieldT_of_selects rfl h)⟩
  | 21, _, rfl, h => ⟨.rnd (fieldX w) (fieldNN w), rfl, wordXNN_fields w 0xC _ (fieldT_of_selects rfl h) rfl⟩
  | 22, _, rfl, h =>
    ⟨.drw (fieldX w) (fieldY w) (fieldN w), rfl, wordXYN_fields w 0xD _ (fieldT_of_selects rfl h) rfl⟩
  | 23, _, rfl, h => ⟨.skp (fieldX w), rfl, wordXNN_of_selects rfl h⟩
  | 24, _, rfl, h => ⟨.sknp (fieldX w), rfl, wordXNN_of_selects rfl h⟩
  | 25, _, rfl, h => ⟨.ldVxDt (fieldX w), rfl, wordXNN_of_selects rfl h⟩
  | 26, _, rfl, h => ⟨.ldVxK (fieldX w), rfl, wordXNN_of_selects rfl h⟩
  | 27, _, rfl, h => ⟨.ldDtVx (fieldX w), rfl, wordXNN_of_selects rfl h⟩
  | 28, _, rfl, h => ⟨.ldStVx (fieldX w), rfl, wordXNN_of_selects rfl h⟩
  | 29, _, rfl, h => ⟨.addIVx (fieldX w), rfl, wordXNN_of_selects rfl h⟩
  | 30, _, rfl, h => ⟨.ldFVx (fieldX w), rfl, wordXNN_of_selects rfl h⟩
  | 31, _, rfl, h => ⟨.ldBVx (fieldX w), rfl, wordXNN_of_selects rfl h⟩
  | 32, _, rfl, h => ⟨.ldMemVx (fieldX w), rfl, wordXNN_of_selects rfl h⟩
  | 33, _, rfl, h => ⟨.ldVxMem (fieldX w), rfl, wordXNN_of_selects rfl h⟩

/-- Only a term of the last row, a data word, can fail to stand for an instruction (R108). -/
theorem Instr.wellFormed_of_tableRow_ne {i : Instr} (h : i.tableRow ≠ 34) : i.wellFormed = true := by
  cases i with
  | dw w => exact absurd rfl h
  | _ => rfl

theorem Instr.wellFormed_dw_iff (w : Word) : (Instr.dw w).wellFormed = true ↔ ¬ recognized w = true := by
  simp [Instr.wellFormed]

/-- The data word has no row of fixed bits: the map's rows are numbered up to 33. -/
theorem ne_tableRow_dw_of_getElem? {k : Nat} {row : OpcodeRow} (h : opcodeTable[k]? = some row) : k ≠ 34 := by
  rintro rfl
  cases h

/-- A word that matches row `k` decodes to a well-formed instruction of row `k`, whose word it is. -/
theorem decodeWord_of_selects {w : Word} {k : Nat} {row : OpcodeRow} (hk : opcodeTable[k]? = some row)
    (h : row.selects w = true) :
    encode (decodeWord w) = w ∧ (decodeWord w).wellFormed = true ∧ (decodeWord w).tableRow = k := by
  obtain ⟨i, hrow, rfl⟩ := exists_encode_eq_of_selects hk h
  have hwf : i.wellFormed = true := Instr.wellFormed_of_tableRow_ne (hrow ▸ ne_tableRow_dw_of_getElem? hk)
  rw [decodeWord_encode i hwf]
  exact ⟨rfl, hwf, hrow⟩

/-- A word that matches no row decodes to the data word (R108). -/
theorem decodeWord_of_not_recognized {w : Word} (h : ¬ recognized w = true) : decodeWord w = .dw w :=
  decodeWord_encode (.dw w) ((Instr.wellFormed_dw_iff w).mpr h)

/-- Settles O20: a word that matches a row is the word of the row's instruction, any other is its own data word. -/
theorem encodeOfDecodeIsWord : Obligations.EncodeOfDecodeIsWord := by
  intro w
  by_cases hw : recognized w = true
  · obtain ⟨k, row, hk, h⟩ := (recognized_iff_exists_row w).mp hw
    obtain ⟨hword, hwf, -⟩ := decodeWord_of_selects hk h
    exact ⟨hword, hwf⟩
  · rw [decodeWord_of_not_recognized hw]
    exact ⟨rfl, (Instr.wellFormed_dw_iff w).mpr hw⟩

/-- A word matches row `k` exactly when it decodes to an instruction of row `k`: it decodes to the row it matches, and
one that matches no row decodes to the data word, which is past the last row. -/
theorem selects_iff_tableRow {k : Nat} {row : OpcodeRow} (hk : opcodeTable[k]? = some row) (w : Word) :
    row.selects w = true ↔ (decodeWord w).tableRow = k := by
  refine ⟨fun h => ?_, fun h => ?_⟩
  · obtain ⟨-, -, hrow⟩ := decodeWord_of_selects hk h
    exact hrow
  by_cases hw : recognized w = true
  · obtain ⟨k', row', hk', h'⟩ := (recognized_iff_exists_row w).mp hw
    obtain ⟨-, -, hrow⟩ := decodeWord_of_selects hk' h'
    obtain rfl : k' = k := hrow.symm.trans h
    cases hk'.symm.trans hk
    exact h'
  · rw [decodeWord_of_not_recognized hw] at h
    exact absurd h.symm (ne_tableRow_dw_of_getElem? hk)

theorem not_recognized_iff_decodeWord (w : Word) : ¬ recognized w = true ↔ decodeWord w = .dw w := by
  refine ⟨decodeWord_of_not_recognized, fun h => ?_⟩
  obtain ⟨-, hwf⟩ := encodeOfDecodeIsWord w
  rw [h] at hwf
  exact (Instr.wellFormed_dw_iff w).mp hwf

/-- Settles O21: the rows by the row of the decoded instruction, no row by the data word. -/
theorem decoderFollowsOpcodeMap : Obligations.DecoderFollowsOpcodeMap := by
  intro w
  refine ⟨fun k row hk => ?_, ?_⟩
  · rw [← OpcodeRow.selects_iff]
    exact selects_iff_tableRow hk w
  · rw [← not_recognized_iff_decodeWord]
    simp [recognized, OpcodeRow.selects_iff]

/-! ## O22: words written out -/

/-- Settles O22: each word is the word of its instruction, by the encoder. -/
theorem writtenWordsDecode : Obligations.WrittenWordsDecode :=
  ⟨decodeWord_encode .ret rfl, decodeWord_encode (.jp 0x204) rfl, decodeWord_encode (.sneImm 10 0x05) rfl,
    decodeWord_encode (.addReg 10 15) rfl, decodeWord_encode (.ldI 0x300) rfl, decodeWord_encode (.drw 1 2 5) rfl,
    decodeWord_encode (.sknp 1) rfl, decodeWord_encode (.ldVxMem 2) rfl, decodeWord_encode (.dw 0x5121) rfl⟩

end Sys2Proof

namespace Sys2Proof.Machine

/-! ## O9: every step answers a next state (R110, R136, R141) -/

/-- A return on an empty stack and a call on a full one record their fault in a next state. -/
theorem exec_answers_next (i : Instr) (s : State) : ∃ t, exec i s = .next t := by
  by_cases hret : i = .ret
  · subst hret
    cases hstack : s.stack with
    | nil => exact ⟨_, execRet_of_nil hstack⟩
    | cons a rest => exact ⟨_, execRet_of_cons hstack⟩
  by_cases hcall : ∃ nnn, i = .call nnn
  · obtain ⟨nnn, rfl⟩ := hcall
    by_cases hfull : s.stackFull = true
    · exact ⟨_, execCall_of_full nnn hfull⟩
    · exact ⟨_, execCall_of_not_full nnn hfull⟩
  obtain ⟨t, ht, -⟩ := exec_keepsCore i s hret (not_exists.mp hcall)
  exact ⟨t, ht⟩

/-- Settles O9: a halted core's step answers the state itself, a running core's what its instruction answers. -/
theorem everyStepAnswersNext : Obligations.EveryStepAnswersNext := by
  refine ⟨fun s => ?_, exec_answers_next⟩
  by_cases hhalt : s.halted = true
  · exact ⟨s, step_of_halted hhalt⟩
  · rw [step_of_running hhalt]
    exact exec_answers_next _ _

end Sys2Proof.Machine

namespace Sys2Proof.Machine

/-! ## O12: where a step leaves the program counter (R135)

The step of a running core executes its instruction in the state after the pre-increment, whose `pc` is `s.pc + 2`. Only
the skips, the transfers and the key wait write `pc` after that. -/

/-- Two increments by 2 are one by 4 (R160). -/
theorem pc_add_two_add_two (a : Word) : a + 2 + 2 = a + 4 := BitVec.add_assoc a 2 2

/-- A skip after the pre-increment moves past the next instruction (R160). -/
theorem State.skipIf_pc_of_advanced {s u : State} (hu : u.pc = s.pc + 2) (c : Bool) :
    (u.skipIf c).pc = if c = true then s.pc + 4 else s.pc + 2 := by
  rw [State.skipIf_pc, hu, pc_add_two_add_two]

/-- The step back of the key wait undoes the pre-increment (R253). -/
theorem State.retreatPc_advancePc (s : State) : s.advancePc.retreatPc = s := by
  have hpc : s.pc + 2 - 2 = s.pc := BitVec.add_sub_cancel s.pc 2
  rw [State.retreatPc, State.advancePc_pc, hpc, State.advancePc]

/-- The key scan finds nothing exactly in the power-on key state (R253). -/
theorem State.keys_eq_replicate_iff (s : State) :
    s.keys = Vector.replicate 16 false ↔ s.firstPressed = none := by
  rw [State.firstPressed_eq_none]
  refine ⟨fun h k => ?_, fun h => Vector.ext fun k hk => ?_⟩
  · rw [h]; exact Vector.getElem_replicate k.isLt
  · rw [Vector.getElem_replicate]; exact h ⟨k, hk⟩

/-- The target of a jump or a call is the number of its immediate (R102). -/
theorem zextAddr_eq_ofNat (nnn : Addr12) : zextAddr nnn = BitVec.ofNat 16 nnn.toNat :=
  (BitVec.ofNat_toNat 16 nnn).symm

/-- The target of `JP V0, nnn`: the sum is formed in 16 bits, in which it does not wrap (R154). -/
theorem zextAddr_add_zextByte (nnn : Addr12) (b : Byte) :
    zextAddr nnn + zextByte b = BitVec.ofNat 16 (nnn.toNat + b.toNat) := by
  rw [BitVec.ofNat_add, BitVec.ofNat_toNat, BitVec.ofNat_toNat, zextAddr, zextByte]

/-- A return leaves the popped address, and on an empty stack the address it stands at (R150, D23). -/
theorem execRet_pc {s t : State} (h : execRet s = .next t) : t.pc = s.stack.head?.getD s.pc := by
  cases hstack : s.stack with
  | nil => cases (execRet_of_nil hstack).symm.trans h; rfl
  | cons a rest => cases (execRet_of_cons hstack).symm.trans h; rfl

/-- A call leaves its target, and on a full stack the address it stands at (R152, R153, D8). -/
theorem execCall_pc {s t : State} {nnn : Addr12} (h : execCall nnn s = .next t) :
    t.pc = if s.stackDepth = some s.stack.length then s.pc else BitVec.ofNat 16 nnn.toNat := by
  by_cases hfull : s.stackFull = true
  · rw [if_pos ((s.stackFull_iff).mp hfull)]
    cases (execCall_of_full nnn hfull).symm.trans h
    rfl
  · rw [if_neg (mt (s.stackFull_iff).mpr hfull)]
    cases (execCall_of_not_full nnn hfull).symm.trans h
    exact zextAddr_eq_ofNat nnn

/-- A key wait that ran after the pre-increment leaves its own address while no key is pressed (R253, R254). -/
theorem execLdVxK_pc {s t : State} {x : Reg} (h : execLdVxK x s.advancePc = .next t) :
    t.pc = if s.keys = Vector.replicate 16 false then s.pc else s.pc + 2 := by
  have hkeys : s.keys = Vector.replicate 16 false ↔ s.advancePc.firstPressed = none :=
    s.advancePc.keys_eq_replicate_iff
  rw [if_congr hkeys rfl rfl]
  cases hkey : s.advancePc.firstPressed with
  | some k => cases (execLdVxK_of_pressed x hkey).symm.trans h; rfl
  | none =>
    cases (execLdVxK_of_none x hkey).symm.trans h
    rw [if_pos rfl, State.retreatPc_advancePc]

/-- Where an instruction that ran after the pre-increment leaves `pc`. -/
theorem exec_advancePc_pc {i : Instr} {s t : State} (h : exec i s.advancePc = .next t) : t.pc = Spec.pcAfter s i := by
  cases i with
  | ret => exact execRet_pc h
  | call nnn => exact execCall_pc h
  | jp nnn => cases h; exact zextAddr_eq_ofNat nnn
  | jpV0 nnn => cases h; exact zextAddr_add_zextByte nnn _
  | seImm | sneImm | seReg | sneReg =>
    cases h
    rw [State.skipIf_pc_of_advanced rfl]
    simp [Spec.pcAfter]
  | skp x => cases h; exact State.skipIf_pc_of_advanced (State.takeKeyDraw_pc _ _) _
  | sknp x =>
    cases h
    have htest : s.advancePc.keyTest (s.advancePc.readV x) s.advancePc.drawBool = Spec.keyDown s x := rfl
    rw [State.skipIf_pc_of_advanced (State.takeKeyDraw_pc _ _), htest, Spec.pcAfter]
    cases Spec.keyDown s x <;> rfl
  | ldVxK x => exact execLdVxK_pc h
  | drw x y n => rw [execDrw_frame h]; rfl
  | ldMemVx x => cases h; rw [storeRegs_frame]; rfl
  | ldVxMem x => cases h; rw [loadRegs_frame]; rfl
  | _ => cases h; rfl

theorem step_of_noFault {s : State} (h : s.fault = .noFault) :
    step s = exec (decodeWord s.fetchWord) s.advancePc :=
  step_of_running (Bool.eq_false_iff.mp ((s.halted_eq_false).mpr h))

/-- Settles O12: a running core's step is its instruction after the pre-increment. -/
theorem pcAfterEveryStep : Obligations.PcAfterEveryStep := fun _ _ hrun h =>
  exec_advancePc_pc ((step_of_noFault hrun).symm.trans h)

/-! ## O31: a word of no row (R108, R136) -/

/-- Settles O31: the word decodes to the data word, which leaves the state of the pre-increment. -/
theorem unrecognizedWordIsNoOp : Obligations.UnrecognizedWordIsNoOp := by
  refine ⟨fun s hrun hrows => ?_, fun _ _ => rfl⟩
  have hword : ¬ recognized s.fetchWord = true := by
    simpa [recognized, OpcodeRow.selects_iff] using hrows
  rw [step_of_noFault hrun, decodeWord_of_not_recognized hword, exec, execDw, State.advancePc]

/-! ## O25 and O52: steps that answer the same state (R141) -/

/-- The step of a running core that fetches the word of an instruction. -/
theorem step_of_fetchWord_eq_encode {s : State} {i : Instr} (hrun : s.fault = .noFault) (hwf : i.wellFormed = true)
    (hword : s.fetchWord = encode i) : step s = exec i s.advancePc := by
  rw [step_of_noFault hrun, hword, decodeWord_encode i hwf]

/-- Settles O25: the jump puts back the `pc` that the pre-increment moved. -/
theorem jumpToItselfRepeats : Obligations.JumpToItselfRepeats := by
  intro s nnn hrun hword hpc
  have htarget : zextAddr nnn = s.pc := BitVec.eq_of_toNat_eq ((zextAddr_toNat nnn).trans hpc.symm)
  rw [step_of_fetchWord_eq_encode hrun rfl hword, exec, execJp, htarget]
  rfl

/-- A key wait with no key pressed answers the same state (R254). -/
theorem step_keyWait_of_no_key {s : State} {x : Reg} (hrun : s.fault = .noFault)
    (hword : s.fetchWord = encode (.ldVxK x)) (hkeys : ∀ k : Reg, s.keys[k] = false) : step s = .next s := by
  have hnone : s.advancePc.firstPressed = none := (s.advancePc.firstPressed_eq_none).mpr hkeys
  rw [step_of_fetchWord_eq_encode hrun rfl hword, exec, execLdVxK_of_none x hnone, State.retreatPc_advancePc]

/-- A state that a step answers unchanged is answered by any number of steps. -/
theorem run_of_step_eq_self {M : Host.Core} {s : M.State} (h : M.step s = .next s) (n : Nat) :
    M.run n s = .next s := by
  induction n with
  | zero => rfl
  | succ n ih => rw [Host.Core.run, h]; exact ih

/-- Settles O52: each step of the stalled key wait answers the same state. -/
theorem keyWaitStallsInPlace : Obligations.KeyWaitStallsInPlace := fun _ _ n hrun hword hkeys =>
  run_of_step_eq_self (M := Sys2Proof.core) (step_keyWait_of_no_key hrun hword hkeys) n

/-! ## O6, O7 and O10: the fetch and the two cases of a step -/

/-- Settles O6: the two bytes are the fetched word, which decodes to `i`. -/
theorem stepRunsDecodedInstruction : Obligations.StepRunsDecodedInstruction := by
  intro s i hrun h
  have hword : decodeBytes [s.memRead s.pc, s.memRead (s.pc + 1)] = .ok (decodeWord s.fetchWord, []) := rfl
  cases hword.symm.trans h
  exact step_of_noFault hrun

/-- The address after `a`, at the top of the 16-bit range too: 4096 divides 65536 (R11, R74). -/
theorem physical_add_one (a : Word) : physical (a + 1) = (a.toNat + 1) % 4096 := by
  simp only [physical, Config.memSize, BitVec.toNat_add, BitVec.reduceToNat]
  omega

/-- Settles O7: a fetch reads the two physical addresses, the high byte first. -/
theorem fetchIsBigEndianModulo4096 : Obligations.FetchIsBigEndianModulo4096 := by
  intro s
  rw [State.fetchWord, toNat_concatBytes, State.memRead, State.memRead, physical_add_one]
  rfl

/-- Settles O10: both transactions test for the halt first. -/
theorem haltedCoreStandsStill : Obligations.HaltedCoreStandsStill := by
  intro s hfault
  have hs : s.halted = true := State.halted_of_fault hfault
  exact ⟨step_of_halted hs, congrArg Host.Outcome.next (State.stepTimers_of_halted hs)⟩

end Sys2Proof.Machine

namespace Sys2Proof.Machine

/-! ## The rows of the control-flow instructions (R103, R104) -/

/-- An instruction whose word is written by the pattern `tnnn` has the row of that nibble. -/
theorem hasPattern_of_wordNNN {i : Instr} {t : BitVec 4} {nnn : Addr12} {pat : Word} (hwf : i.wellFormed = true)
    (hword : encode i = wordNNN t nnn) (hpat : pat.toNat = t.toNat * 4096) : Spec.HasPattern pat 0xF000 i := by
  refine ⟨BitVec.eq_of_toNat_eq ?_, decodeWord_encode i hwf⟩
  rw [hword, hpat]
  exact mask_wordNNN t nnn

/-- An instruction whose word is written by the pattern `txyn` has the row of those two nibbles. -/
theorem hasPattern_of_wordXYN_low {i : Instr} {t n : BitVec 4} {x y : Reg} {pat : Word} (hwf : i.wellFormed = true)
    (hword : encode i = wordXYN t x y n) (hpat : pat.toNat = t.toNat * 4096 + n.toNat) :
    Spec.HasPattern pat 0xF00F i := by
  refine ⟨BitVec.eq_of_toNat_eq ?_, decodeWord_encode i hwf⟩
  rw [hword, hpat]
  exact mask_wordXYN_low t x y n

/-! ## O27: a call and its return -/

/-- A call that does not overflow pushes `pc` (R152). -/
theorem execCall_stack {s t : State} {nnn : Addr12} (hroom : s.stackDepth ≠ some s.stack.length)
    (h : execCall nnn s = .next t) : t.stack = s.pc :: s.stack := by
  cases (execCall_of_not_full nnn (mt (s.stackFull_iff).mp hroom)).symm.trans h
  rfl

/-- Settles O27: the return pops the address the call pushed. -/
theorem returnResumesAfterCall : Obligations.ReturnResumesAfterCall := by
  intro s t t' nnn hroom hcall hstack
  have hpushed : t'.stack = s.pc :: s.stack := hstack.trans (execCall_stack hroom hcall)
  exact ⟨_, execRet_of_cons hpushed, rfl, rfl⟩

/-! ## O30: the skips on a key -/

/-- A skip on the negation of a condition (R160). -/
theorem State.skipIf_not (s : State) (c : Bool) :
    s.skipIf (!c) = { s with pc := if c = true then s.pc else s.pc + 2 } := by
  cases c <;> rfl

/-- A number of 16 or more names no key, so the draw decides the test (R163, D6). -/
theorem State.keyTest_of_ge (s : State) {k : Byte} (hk : 16 ≤ k.toNat) (draw : Bool) : s.keyTest k draw = draw :=
  dif_neg (Nat.not_lt.mpr hk)

/-- A number of 16 or more names no key, so one draw is taken (R163, D6). -/
theorem State.takeKeyDraw_of_ge (s : State) {k : Byte} (hk : 16 ≤ k.toNat) : s.takeKeyDraw k = s.takeDraw :=
  if_neg (mt of_decide_eq_true (Nat.not_lt.mpr hk))

/-- Settles O30: the key decides where `V[x]` names one, and the draw where it does not. -/
theorem keySkips : Obligations.KeySkips := by
  intro s x
  refine ⟨hasPattern_of_wordXNN_low rfl rfl rfl, hasPattern_of_wordXNN_low rfl rfl rfl,
    fun hkey => ⟨?_, ?_⟩, fun hnone => ⟨?_, ?_⟩⟩
  · rw [exec, execSkp, s.takeKeyDraw_of_lt hkey, s.keyTest_of_lt hkey, State.skipIf_eq]
  · rw [exec, execSknp, s.takeKeyDraw_of_lt hkey, s.keyTest_of_lt hkey, State.skipIf_not]
  · rw [exec, execSkp, s.takeKeyDraw_of_ge hnone, s.keyTest_of_ge hnone, State.skipIf_eq]
    rfl
  · rw [exec, execSknp, s.takeKeyDraw_of_ge hnone, s.keyTest_of_ge hnone, State.skipIf_not]
    rfl

/-! ## O23, O24 and O26: return, jumps and call -/

/-- Settles O23: the two branches of the return; its row fixes the whole word. -/
theorem returnPopsOrUnderflows : Obligations.ReturnPopsOrUnderflows := fun _ =>
  ⟨⟨rfl, decodeWord_encode .ret rfl⟩, fun _ _ => execRet_of_cons, execRet_of_nil⟩

/-- The target of `JP V0, nnn` is below 65536, so the sum in 16 bits is the sum of the numbers (R154, D9). -/
theorem zextAddr_add_zextByte_toNat (nnn : Addr12) (b : Byte) :
    (zextAddr nnn + zextByte b).toNat = nnn.toNat + b.toNat := by
  have hlt : nnn.toNat + b.toNat < 2 ^ 16 := by have := nnn.isLt; have := b.isLt; omega
  rw [zextAddr_add_zextByte, BitVec.toNat_ofNat, Nat.mod_eq_of_lt hlt]

/-- Settles O24: each jump sets `pc` alone, to its target. -/
theorem jumpsReplacePc : Obligations.JumpsReplacePc := fun s nnn =>
  ⟨hasPattern_of_wordNNN rfl rfl rfl, hasPattern_of_wordNNN rfl rfl rfl,
    ⟨s.setPc (zextAddr nnn), rfl, zextAddr_toNat nnn, rfl⟩,
    ⟨s.setPc (zextAddr nnn + zextByte (s.readV 0)), rfl, zextAddr_add_zextByte_toNat nnn (s.readV 0), rfl⟩⟩

/-- Settles O26: the two branches of the call. -/
theorem callPushesOrOverflows : Obligations.CallPushesOrOverflows := by
  intro s nnn
  refine ⟨hasPattern_of_wordNNN rfl rfl rfl, fun hroom => ?_, fun hfull => ?_⟩
  · exact ⟨_, execCall_of_not_full nnn (mt (s.stackFull_iff).mp hroom), rfl, zextAddr_toNat nnn, rfl⟩
  · exact execCall_of_full nnn ((s.stackFull_iff).mpr hfull)

/-! ## O28 and O29: the skips on a comparison -/

/-- A skip on equality (R156, R158). -/
theorem State.skipIf_beq (s : State) (a b : Byte) :
    s.skipIf (a == b) = { s with pc := if a = b then s.pc + 2 else s.pc } := by
  rw [State.skipIf_eq, if_congr beq_iff_eq rfl rfl]

/-- A skip on inequality (R157, R159). -/
theorem State.skipIf_bne (s : State) (a b : Byte) :
    s.skipIf (a != b) = { s with pc := if a = b then s.pc else s.pc + 2 } := by
  rw [bne, State.skipIf_not, if_congr beq_iff_eq rfl rfl]

/-- Settles O28: the two comparisons of `V[x]` with the immediate. -/
theorem immediateSkips : Obligations.ImmediateSkips := fun s x nn =>
  ⟨hasPattern_of_wordXNN (Laws.DecodesBack.seImm x nn) rfl rfl rfl,
    hasPattern_of_wordXNN (Laws.DecodesBack.sneImm x nn) rfl rfl rfl,
    congrArg Host.Outcome.next (s.skipIf_beq (s.readV x) nn),
    congrArg Host.Outcome.next (s.skipIf_bne (s.readV x) nn)⟩

/-- Settles O29: the two comparisons of `V[x]` with `V[y]`, and their outcome at `y = x`. -/
theorem registerSkips : Obligations.RegisterSkips := by
  intro s x y
  have hse (y : Reg) : exec (.seReg x y) s =
      .next { s with pc := if s.readV x = s.readV y then s.pc + 2 else s.pc } :=
    congrArg Host.Outcome.next (s.skipIf_beq (s.readV x) (s.readV y))
  have hsne (y : Reg) : exec (.sneReg x y) s =
      .next { s with pc := if s.readV x = s.readV y then s.pc else s.pc + 2 } :=
    congrArg Host.Outcome.next (s.skipIf_bne (s.readV x) (s.readV y))
  refine ⟨hasPattern_of_wordXYN_low rfl rfl rfl, hasPattern_of_wordXYN_low rfl rfl rfl, hse y, hsne y, ?_, ?_⟩
  · rw [hse x, if_pos rfl]
  · rw [hsne x, if_pos rfl]

end Sys2Proof.Machine

namespace Sys2Proof.Machine

/-! ## O35 and O36: the additions and subtractions with a flag (R183, R189, R190, R192) -/

theorem flagByte_toNat (c : Bool) : (flagByte c).toNat = if c = true then 1 else 0 := by
  cases c <;> rfl

theorem carryFlag_toNat (a b : Byte) : (carryFlag a b).toNat = if a.toNat + b.toNat > 255 then 1 else 0 := by
  rw [carryFlag, flagByte_toNat, if_congr decide_eq_true_iff rfl rfl]

theorem notBorrowFlag_toNat (a b : Byte) : (notBorrowFlag a b).toNat = if b.toNat > a.toNat then 0 else 1 := by
  rw [notBorrowFlag, flagByte_toNat]
  by_cases h : b.toNat > a.toNat <;> simp [h]

/-- The difference of two bytes wraps modulo 256 (R9). -/
theorem byte_sub_toNat (a b : Byte) : (a - b).toNat = (a.toNat + 256 - b.toNat) % 256 := by
  have hlt := b.isLt
  rw [BitVec.toNat_sub]
  omega

/-- The registers that an instruction with a result `m` and a flag `n` leaves: the flag is written last, so it stands in
`VF` whatever `x` is (R183, R194, D4). -/
theorem registers_of_exec_eq_writeResultThenFlag {s : State} {i : Instr} {x : Reg} {res flag : Byte} {m n : Nat}
    (h : exec i s = .next (s.writeResultThenFlag x res flag)) (hres : res.toNat = m) (hflag : flag.toNat = n) :
    ∃ t, exec i s = .next t ∧ (x ≠ vf → (t.readV x).toNat = m) ∧ (t.readV vf).toNat = n ∧
      (∀ r, r ≠ x → r ≠ vf → t.readV r = s.readV r) ∧ t = { s with v := t.v } := by
  refine ⟨_, h, fun hx => ?_, ?_, fun r hr hvf => ?_, rfl⟩
  · rw [State.writeResultThenFlag_readV, if_neg hx, if_pos rfl, hres]
  · rw [State.writeResultThenFlag_readV, if_pos rfl, hflag]
  · rw [State.writeResultThenFlag_readV, if_neg hvf, if_neg hr]

/-- Settles O35: the sum of two bytes wraps, and its carry is the flag. -/
theorem addWritesCarry : Obligations.AddWritesCarry := fun _ _ _ =>
  ⟨hasPattern_of_wordXYN_low rfl rfl rfl,
    registers_of_exec_eq_writeResultThenFlag rfl (BitVec.toNat_add _ _) (carryFlag_toNat _ _)⟩

/-- Settles O36: the difference of two bytes wraps, and NOT borrow is the flag, for either order of the operands. -/
theorem subtractionsWriteNotBorrow : Obligations.SubtractionsWriteNotBorrow := fun _ _ _ =>
  ⟨hasPattern_of_wordXYN_low rfl rfl rfl, hasPattern_of_wordXYN_low rfl rfl rfl,
    registers_of_exec_eq_writeResultThenFlag rfl (byte_sub_toNat _ _) (notBorrowFlag_toNat _ _),
    registers_of_exec_eq_writeResultThenFlag rfl (byte_sub_toNat _ _) (notBorrowFlag_toNat _ _)⟩

/-! ## O37: the shifts (R191, R193)

Both write the flag first and then shift `V[x]` as that write left it, so that for `x = 15` it is the flag that is
shifted. -/

/-- Write a flag to `VF`, then `V[x]`, as that write left it, shifted: what the two shifts do (R183). -/
def State.flagThenShift (s : State) (x : Reg) (flag : Byte) (shift : Byte → Byte) : State :=
  (s.writeV vf flag).writeV x (shift ((s.writeV vf flag).readV x))

theorem execShr_eq (x y : Reg) (s : State) :
    execShr x y s = .next (s.flagThenShift x (lsbFlag (s.readV x)) (· >>> 1)) := rfl

theorem execShl_eq (x y : Reg) (s : State) :
    execShl x y s = .next (s.flagThenShift x (msbFlag (s.readV x)) (· <<< 1)) := rfl

theorem State.flagThenShift_readV_self {s : State} {x : Reg} (flag : Byte) (shift : Byte → Byte) (hx : x ≠ vf) :
    (s.flagThenShift x flag shift).readV x = shift (s.readV x) := by
  rw [State.flagThenShift, State.writeV_readV, if_pos rfl, State.writeV_readV_of_ne s flag hx]

theorem State.flagThenShift_readV_vf {s : State} {x : Reg} (flag : Byte) (shift : Byte → Byte) (hx : x ≠ vf) :
    (s.flagThenShift x flag shift).readV vf = flag := by
  rw [State.flagThenShift, State.writeV_readV_of_ne _ _ hx.symm, State.writeV_readV, if_pos rfl]

/-- With `x = 15` the shift reads the flag just written (R194, D4). -/
theorem State.flagThenShift_vf_readV_vf (s : State) (flag : Byte) (shift : Byte → Byte) :
    (s.flagThenShift vf flag shift).readV vf = shift flag := by
  rw [State.flagThenShift, State.writeV_readV, if_pos rfl, State.writeV_readV, if_pos rfl]

theorem State.flagThenShift_readV_of_ne {s : State} {x r : Reg} (flag : Byte) (shift : Byte → Byte) (hr : r ≠ x)
    (hvf : r ≠ vf) : (s.flagThenShift x flag shift).readV r = s.readV r := by
  rw [State.flagThenShift, State.writeV_readV_of_ne _ _ hr, State.writeV_readV_of_ne s flag hvf]

/-- The registers that a shift leaves: its result `m` and flag `n` for `x` other than 15, and for `x = 15` the shifted
flag `b`. -/
theorem registers_of_exec_eq_flagThenShift {s : State} {i : Instr} {x : Reg} {flag b : Byte} {shift : Byte → Byte}
    {m n : Nat} (h : exec i s = .next (s.flagThenShift x flag shift)) (hres : (shift (s.readV x)).toNat = m)
    (hflag : flag.toNat = n) (hvf : x = vf → shift flag = b) :
    ∃ t, exec i s = .next t ∧ (x ≠ vf → (t.readV x).toNat = m ∧ (t.readV vf).toNat = n) ∧
      (x = vf → t.readV vf = b) ∧ (∀ r, r ≠ x → r ≠ vf → t.readV r = s.readV r) ∧ t = { s with v := t.v } := by
  refine ⟨_, h, fun hx => ⟨?_, ?_⟩, fun hx => ?_, fun r => State.flagThenShift_readV_of_ne flag shift, rfl⟩
  · rw [State.flagThenShift_readV_self flag shift hx, hres]
  · rw [State.flagThenShift_readV_vf flag shift hx, hflag]
  · rw [← hvf hx, hx, State.flagThenShift_vf_readV_vf]

theorem byte_shiftRight_one_toNat (a : Byte) : (a >>> 1).toNat = a.toNat / 2 := by
  rw [BitVec.toNat_ushiftRight, Nat.shiftRight_eq_div_pow, pow_one]

theorem byte_shiftLeft_one_toNat (a : Byte) : (a <<< 1).toNat = a.toNat * 2 % 256 := by
  rw [BitVec.toNat_shiftLeft, Nat.shiftLeft_eq, pow_one]

/-- The flag of a right shift, 0 or 1, shifted right (R194). -/
theorem lsbFlag_shiftRight_one (a : Byte) : lsbFlag a >>> 1 = 0 := by
  apply BitVec.eq_of_toNat_eq
  rw [byte_shiftRight_one_toNat, lsbFlag_toNat]
  exact Nat.div_eq_of_lt (Nat.mod_lt _ two_pos)

/-- The flag of a left shift, 0 or 1, shifted left (R194). -/
theorem msbFlag_shiftLeft_one (a : Byte) : msbFlag a <<< 1 = if 0x80 ≤ a.toNat then 2 else 0 := by
  have hlt := a.isLt
  apply BitVec.eq_of_toNat_eq
  rw [byte_shiftLeft_one_toNat, msbFlag_toNat]
  split <;> simp only [BitVec.reduceToNat] <;> omega

/-- Settles O37: the shift of `V[x]` and the bit it puts out, and the shift of the flag where `x` is 15. -/
theorem shiftsWriteBitShiftedOut : Obligations.ShiftsWriteBitShiftedOut := by
  intro s x y
  refine ⟨hasPattern_of_wordXYN_low rfl rfl rfl, hasPattern_of_wordXYN_low rfl rfl rfl, ?_, ?_⟩
  · exact registers_of_exec_eq_flagThenShift (execShr_eq x y s) (byte_shiftRight_one_toNat _) (lsbFlag_toNat _)
      fun _ => lsbFlag_shiftRight_one _
  · refine registers_of_exec_eq_flagThenShift (execShl_eq x y s) (byte_shiftLeft_one_toNat _) (msbFlag_toNat _) ?_
    rintro rfl
    exact msbFlag_shiftLeft_one (s.readV vf)

/-! ## O32 to O34: the loads, the logic and the immediate add, which write one register and no flag (R180 to R188) -/

/-- An instruction whose meaning is one register write changes that register alone. -/
theorem writesRegister_of_exec_eq_writeV {s : State} {i : Instr} {x : Reg} {b : Byte}
    (h : exec i s = .next (s.writeV x b)) : Spec.WritesRegister s i x b := by
  refine ⟨_, h, ?_, fun r hr => s.writeV_readV_of_ne b hr, rfl⟩
  rw [State.writeV_readV, if_pos rfl]

/-- Settles O32: each load is one register write. -/
theorem loadsWriteTheirOperand : Obligations.LoadsWriteTheirOperand := fun _ x _ nn =>
  ⟨hasPattern_of_wordXNN (Laws.DecodesBack.ldImm x nn) rfl rfl rfl, hasPattern_of_wordXYN_low rfl rfl rfl,
    writesRegister_of_exec_eq_writeV rfl, writesRegister_of_exec_eq_writeV rfl⟩

/-- Settles O33: each logic instruction is one register write. -/
theorem logicWritesBitwiseResult : Obligations.LogicWritesBitwiseResult := fun _ _ _ =>
  ⟨hasPattern_of_wordXYN_low rfl rfl rfl, hasPattern_of_wordXYN_low rfl rfl rfl, hasPattern_of_wordXYN_low rfl rfl rfl,
    writesRegister_of_exec_eq_writeV rfl, writesRegister_of_exec_eq_writeV rfl, writesRegister_of_exec_eq_writeV rfl⟩

/-- Settles O34: the immediate add is one register write, of a sum that wraps. -/
theorem addImmediateWraps : Obligations.AddImmediateWraps := by
  intro s x nn
  obtain ⟨t, ht, hx, hrest⟩ : Spec.WritesRegister s (.addImm x nn) x (s.readV x + nn) :=
    writesRegister_of_exec_eq_writeV rfl
  refine ⟨hasPattern_of_wordXNN (Laws.DecodesBack.addImm x nn) rfl rfl rfl, t, ht, ?_, hrest⟩
  rw [hx, BitVec.toNat_add]

end Sys2Proof.Machine

namespace Sys2Proof.Machine

/-! ## O39 and O40: the loads of `I` and the addition to it (R210, R212, R214) -/

/-- An instruction whose meaning is one write of `I` changes `I` alone. -/
theorem index_of_exec_eq_setI {s : State} {i : Instr} {a : Word} {n : Nat} (h : exec i s = .next (s.setI a))
    (ha : a.toNat = n) : ∃ t, exec i s = .next t ∧ t.i.toNat = n ∧ t = { s with i := t.i } :=
  ⟨s.setI a, h, ha, rfl⟩

/-- The glyph of the highest byte is at 1355, so the 16-bit product and sum are those of the numbers (R214). -/
theorem glyphAddr_toNat (b : Byte) : (glyphAddr b).toNat = 0x050 + 5 * b.toNat := by
  have hlt := b.isLt
  rw [glyphAddr, BitVec.toNat_add, BitVec.toNat_mul, zextByte_toNat]
  simp only [Config.fontBase, Config.glyphBytes, BitVec.reduceToNat]
  omega

/-- Adding a zero-extended byte wraps modulo 65536 (R212). -/
theorem add_zextByte_toNat (a : Word) (b : Byte) : (a + zextByte b).toNat = (a.toNat + b.toNat) % 65536 := by
  rw [BitVec.toNat_add, zextByte_toNat]

/-- Settles O39: one write of `I`, of the glyph's address. -/
theorem fontAddressIsFiveTimesDigit : Obligations.FontAddressIsFiveTimesDigit := fun s x =>
  ⟨hasPattern_of_wordXNN_low rfl rfl rfl, index_of_exec_eq_setI rfl (glyphAddr_toNat (s.readV x))⟩

/-- Settles O40: each is one write of `I`, of the address and of the wrapping sum. -/
theorem indexLoadAndAdd : Obligations.IndexLoadAndAdd := fun s nnn x =>
  ⟨hasPattern_of_wordNNN rfl rfl rfl, hasPattern_of_wordXNN_low rfl rfl rfl,
    index_of_exec_eq_setI rfl (zextAddr_toNat nnn), index_of_exec_eq_setI rfl (add_zextByte_toNat s.i (s.readV x))⟩

end Sys2Proof.Machine

namespace Sys2Proof.Machine

/-! ## The display instructions (R230 to R239) -/

/-- An instruction whose word is written by the pattern `txyn`, the low nibble an operand, has the row of the high
nibble (R103, R104). -/
theorem hasPattern_of_wordXYN {i : Instr} {t n : BitVec 4} {x y : Reg} {pat : Word} (hwf : i.wellFormed = true)
    (hword : encode i = wordXYN t x y n) (hpat : pat.toNat = t.toNat * 4096) : Spec.HasPattern pat 0xF000 i := by
  refine ⟨BitVec.eq_of_toNat_eq ?_, decodeWord_encode i hwf⟩
  rw [hword, hpat]
  exact mask_wordXYN t x y n

/-- The pixels drawn are those the specification's predicate names: a pixel's offset from the anchor gives back the row
and the column of the bit that lands on it (R233 to R235). -/
theorem State.mem_spritePixels_iff_spriteCovers (s : State) (x y : Reg) (n : Height) (c : Col) (r : Row) :
    (c, r) ∈ s.spritePixels (s.anchorCol x) (s.anchorRow y) n ↔ Spec.spriteCovers s x y n c r = true := by
  rw [State.mem_spritePixels]
  simp only [Spec.spriteCovers, Bool.and_eq_true, decide_eq_true_eq, State.anchorCol, State.anchorRow, State.indexAddr]
  constructor
  · rintro ⟨row, hrow, col, hcol, hbit, hc, hr⟩
    have hdc : (c.val + 64 - (s.readV x).toNat % 64) % 64 = col := by omega
    have hdr : (r.val + 32 - (s.readV y).toNat % 32) % 32 = row := by omega
    rw [hdc, hdr]
    exact ⟨⟨hcol, hrow⟩, hbit⟩
  · rintro ⟨⟨hcol, hrow⟩, hbit⟩
    exact ⟨_, hrow, _, hcol, hbit, by omega, by omega⟩

/-- A sprite depends on its two anchor registers, `I` and memory alone. -/
theorem State.spriteCovers_congr {s t : State} {x y : Reg} (hx : t.readV x = s.readV x) (hy : t.readV y = s.readV y)
    (hi : t.i = s.i) (hmem : t.mem = s.mem) (n : Height) (c : Col) (r : Row) :
    Spec.spriteCovers t x y n c r = Spec.spriteCovers s x y n c r := by
  simp only [Spec.spriteCovers, hx, hy, hi, State.memRead_congr hmem]

/-- A draw flips the pixels of the sprite (R236, R238). -/
theorem execDrw_pixel {s t : State} {x y : Reg} {n : Height} (h : execDrw x y n s = .next t) (c : Col) (r : Row) :
    t.pixel c r = (s.pixel c r ^^ Spec.spriteCovers s x y n c r) := by
  cases h
  rw [State.setRedraw_pixel, State.plotAll_pixel (s.spritePixels_nodup _ _ _ (by omega)), State.writeV_pixel]
  simp only [State.mem_spritePixels_iff_spriteCovers, Bool.decide_eq_true]

/-- A draw leaves in `VF` whether some pixel of the sprite was on (R236, R238). -/
theorem execDrw_readV_vf {s t : State} {x y : Reg} {n : Height} (h : execDrw x y n s = .next t) :
    t.readV vf = if ∃ c r, Spec.spriteCovers s x y n c r = true ∧ s.pixel c r = true then 1 else 0 := by
  cases h
  rw [State.setRedraw_readV, State.plotAll_readV (s.spritePixels_nodup _ _ _ (by omega)), State.writeV_readV,
    if_pos rfl]
  simp only [Prod.exists, State.mem_spritePixels_iff_spriteCovers, State.writeV_pixel, true_and]

/-- Where every pixel of the sprite is off, a draw leaves `VF` 0 (R236). -/
theorem execDrw_readV_vf_of_no_collision {s t : State} {x y : Reg} {n : Height} (h : execDrw x y n s = .next t)
    (hoff : ∀ c r, Spec.spriteCovers s x y n c r = true → s.pixel c r = false) : t.readV vf = 0 := by
  rw [execDrw_readV_vf h, if_neg]
  rintro ⟨c, r, hcover, hon⟩
  exact Bool.false_ne_true ((hoff c r hcover).symm.trans hon)

/-- Settles O47: a plot of distinct pixels, which are those the sprite covers. -/
theorem spriteDrawXorsPixels : Obligations.SpriteDrawXorsPixels := by
  intro s x y n
  obtain ⟨t, ht⟩ := exec_answers_next (.drw x y n) s
  have hframe := execDrw_frame ht
  refine ⟨hasPattern_of_wordXYN rfl rfl rfl, t, ht, execDrw_pixel ht, fun hon => ?_,
    execDrw_readV_vf_of_no_collision ht, fun r hr => execDrw_readV_of_ne hr ht, by rw [hframe], by rw [hframe]⟩
  rw [execDrw_readV_vf ht, if_pos hon]

/-- Settles O48: both draws flip the same pixels, and a pixel of the sprite is on before the second exactly when it was
off before the first. -/
theorem drawingTwiceRestoresPixels : Obligations.DrawingTwiceRestoresPixels := by
  intro s t t' x y n ht hfb hx hy hi hmem
  obtain ⟨u, hu⟩ := exec_answers_next (.drw x y n) t'
  have hcover := State.spriteCovers_congr hx hy hi hmem n
  have hpixel (c : Col) (r : Row) : t'.pixel c r = (s.pixel c r ^^ Spec.spriteCovers s x y n c r) :=
    (State.pixel_congr hfb c r).trans (execDrw_pixel ht c r)
  refine ⟨u, hu, fun c r => ?_, ?_⟩
  · rw [execDrw_pixel hu, hpixel, hcover, Bool.xor_assoc, Bool.xor_self, Bool.xor_false]
  · rw [execDrw_readV_vf hu, Ne.ite_eq_left_iff (by decide)]
    refine exists₂_congr fun c r => ?_
    rw [hcover, hpixel]
    refine and_congr_right fun hc => ?_
    rw [hc, Bool.xor_true, Bool.not_eq_true']

/-- Settles O49: the sprite meets no pixel that is on, and flipping from off turns on. -/
theorem drawOnClearedScreen : Obligations.DrawOnClearedScreen := by
  intro s t x y n ht
  cases ht
  obtain ⟨u, hu⟩ := exec_answers_next (.drw x y n) s.clearPixels.setRedraw
  have hoff (c : Col) (r : Row) : s.clearPixels.setRedraw.pixel c r = false := s.clearPixels_pixel c r
  refine ⟨u, hu, by rw [execDrw_frame hu], execDrw_readV_vf_of_no_collision hu fun c r _ => hoff c r, fun c r => ?_⟩
  rw [execDrw_pixel hu, hoff, Bool.false_xor]
  exact State.spriteCovers_congr rfl rfl rfl rfl n c r

/-- Settles O46: the row fixes the whole word, and the meaning clears the pixels and sets the flag. -/
theorem clearScreen : Obligations.ClearScreen := fun s =>
  ⟨⟨rfl, decodeWord_encode .cls rfl⟩, s.clearPixels.setRedraw, rfl, s.clearPixels_pixel, rfl, rfl⟩

end Sys2Proof.Machine

namespace Sys2Proof.Machine

/-! ## O51: the key wait (R253, R254) -/

/-- Settles O51: the key scan finds the key that is pressed with none below it, and nothing where no key is pressed. -/
theorem keyWaitTakesLowestKey : Obligations.KeyWaitTakesLowestKey := by
  intro s x
  refine ⟨hasPattern_of_wordXNN_low rfl rfl rfl, fun k hk hbelow => ?_, fun hnone => ?_⟩
  · have hkey : s.firstPressed = some k := (s.firstPressed_eq_some k).mpr ⟨hk, hbelow⟩
    exact writesRegister_of_exec_eq_writeV (execLdVxK_of_pressed x hkey)
  · have hkey : s.firstPressed = none := (s.firstPressed_eq_none).mpr hnone
    exact execLdVxK_of_none x hkey

/-! ## O53 and O54: the timer steps of a running core (R260 to R264) -/

/-- The timer step of a running core counts each timer down on its own (R260, R264). -/
theorem State.stepTimers_of_noFault {s : State} (h : s.fault = .noFault) :
    s.stepTimers = { s with dt := countDown s.dt, st := countDown s.st } :=
  if_neg (Bool.eq_false_iff.mp ((s.halted_eq_false).mpr h))

/-- `n` counts take a timer down by `n`, never below 0 (R263). -/
theorem countDown_iterate_toNat (n : Nat) (b : Byte) : (countDown^[n] b).toNat = b.toNat - n := by
  induction n generalizing b with
  | zero => rfl
  | succ n ih => rw [Function.iterate_succ_apply, ih, countDown_toNat, Nat.sub_sub, Nat.add_comm 1 n]

/-- `n` timer steps of a running core are `n` counts of each timer: none records a fault, so the core runs on. -/
theorem runSchedule_replicate_stepTimers (n : Nat) {s : State} (h : s.fault = .noFault) :
    runSchedule (List.replicate n .stepTimers) s =
      .next { s with dt := countDown^[n] s.dt, st := countDown^[n] s.st } := by
  induction n generalizing s with
  | zero => rfl
  | succ n ih =>
    rw [List.replicate_succ, runSchedule, Transaction.run, State.stepTimers_of_noFault h]
    exact ih h

/-- Settles O54: each timer counts down `n` times, and a count is a subtraction cut at 0. -/
theorem timersReachZero : Obligations.TimersReachZero := fun s n hrun =>
  ⟨_, runSchedule_replicate_stepTimers n hrun, countDown_iterate_toNat n s.dt, countDown_iterate_toNat n s.st, rfl⟩

/-- Settles O53: each timer counts down once. -/
theorem timerStepCountsDown : Obligations.TimerStepCountsDown := fun s hrun =>
  ⟨_, congrArg Host.Outcome.next (State.stepTimers_of_noFault hrun), countDown_toNat s.dt, countDown_toNat s.st, rfl⟩

/-! ## O50: the timer instructions (R250 to R252) -/

/-- Settles O50: the read is one register write, the others each write their timer, and the sound is active while `ST`
is not 0. -/
theorem timerInstructions : Obligations.TimerInstructions := fun s x =>
  ⟨hasPattern_of_wordXNN_low rfl rfl rfl, hasPattern_of_wordXNN_low rfl rfl rfl,
    hasPattern_of_wordXNN_low rfl rfl rfl, writesRegister_of_exec_eq_writeV rfl, rfl,
    s.setST (s.readV x), rfl, rfl, (s.setST (s.readV x)).soundActive_iff⟩

end Sys2Proof.Machine

namespace Sys2Proof.Machine

/-! ## O55 and O56: the loads (R304, R307, R309)

Both loads are `State.loadBytes` of a list that ends inside the 4096 bytes of memory, so no byte of it wraps. -/

theorem physical_ofNat {n : Nat} (h : n < 4096) : physical (BitVec.ofNat 16 n) = n := by
  rw [physical, Config.memSize, BitVec.toNat_ofNat]
  omega

theorem State.loadBytes_memRead_of_lt (s : State) {base k : Nat} {bs : List Byte} (hfit : base + bs.length ≤ 4096)
    (hk : k < bs.length) : (s.loadBytes base bs).memRead (BitVec.ofNat 16 (base + k)) = bs[k] := by
  have hinside : base ≤ base + k ∧ base + k < base + bs.length := by omega
  rw [State.memRead, physical_ofNat (by omega), State.loadBytes_read, dif_pos hinside]
  simp only [Nat.add_sub_cancel_left]

theorem State.loadBytes_memRead_of_outside (s : State) {base : Nat} {bs : List Byte} {a : Word}
    (ha : ¬ (base ≤ a.toNat % 4096 ∧ a.toNat % 4096 < base + bs.length)) :
    (s.loadBytes base bs).memRead a = s.memRead a := by
  rw [State.memRead, State.loadBytes_read]
  exact dif_neg ha

/-- Settles O55: the table's 80 bytes end at 0x09F, inside memory. -/
theorem fontIsLoaded : Obligations.FontIsLoaded := by
  intro s table
  have hlen : table.toList.length = 80 := table.length_toList
  refine ⟨s.loadFont table, rfl, fun k => ?_, fun a ha => ?_, State.loadBytes_frame ..⟩
  · exact s.loadBytes_memRead_of_lt (by rw [hlen]; decide) (by omega)
  · refine s.loadBytes_memRead_of_outside fun hinside => ha ?_
    rw [hlen, Config.fontBase] at hinside
    omega

/-- Memory has 3584 bytes from 0x200 on (R309). -/
theorem romTooLarge_iff (bytes : List Byte) : romTooLarge bytes = true ↔ 3584 < bytes.length := by
  rw [romTooLarge, decide_eq_true_iff, Config.progBase, Config.memSize]
  omega

/-- Settles O56: a program that fits is loaded byte by byte, and the size is checked before the first. -/
theorem programIsLoadedWhole : Obligations.ProgramIsLoadedWhole := by
  intro s bytes
  refine ⟨fun hle => ?_, fun hlt => ?_⟩
  · have hfits : ¬ romTooLarge bytes = true := mt (romTooLarge_iff bytes).mp (Nat.not_lt.mpr hle)
    have hload : s.loadProgram bytes = s.loadBytes Config.progBase bytes := if_neg hfits
    refine ⟨if_neg hfits, _, congrArg Host.Outcome.next hload, fun k hk => ?_, fun a ha => ?_,
      State.loadBytes_frame ..⟩
    · exact s.loadBytes_memRead_of_lt (Nat.add_le_add_left hle Config.progBase) hk
    · exact s.loadBytes_memRead_of_outside ha
  · have hlarge : romTooLarge bytes = true := (romTooLarge_iff bytes).mpr hlt
    exact ⟨if_pos hlarge, congrArg Host.Outcome.next (if_pos hlarge)⟩

/-! ## O2: the reset transaction (R301) -/

/-- Settles O2: the reset writes the power-on value to each part it clears, and memory and the redraw flag stand. -/
theorem resetClearsAllButMemoryAndRedraw : Obligations.ResetClearsAllButMemoryAndRedraw := fun s =>
  ⟨s.hostReset, rfl, State.reset_readV, rfl, rfl, rfl, Framebuffer.off_getElem, rfl, rfl, State.reset_keys, rfl,
    fun _ => rfl, rfl, rfl⟩

end Sys2Proof.Machine
